-- ==== Sys2Proof/Word.lean ====
section
/-! DEFINITION. The bit-vector types of the machine (00_scope.md rule R5): what the spec treats as bits, and nothing else.
An address of memory is a natural number, computed without truncation (20_memory.md rule R60). -/

namespace Sys2Proof

/-- Four bits: a family nibble, a register field, a sprite height (30_encoding.md rule R92). -/
abbrev Nibble := BitVec 4

/-- Eight bits: a memory byte, a V register, a timer (00_scope.md rule R5). -/
abbrev Byte := BitVec 8

/-- Twelve bits: the `nnn` field (30_encoding.md rule R92). -/
abbrev Addr12 := BitVec 12

/-- Sixteen bits: an instruction word, I, PC, a stack entry (00_scope.md rule R5). -/
abbrev Word := BitVec 16

/-- The number of a general register V0..VF, 0..15 (10_state.md rule R21). -/
abbrev Reg := Fin 16

/-- VF, the register that doubles as the flag: V[15] (10_state.md rules R21 and R22). -/
abbrev VF : Reg := 15

end Sys2Proof
end

