-- ==== Sys2Proof/Config.lean ====
section
/-! DEFINITION. What an implementation fixes, and the one value the spec leaves free. -/

namespace Sys2Proof

/-- PROG_BASE, where a program is loaded and PC starts (00_scope.md rule R5). -/
def Config.progBase : Nat := 0x200

/-- The last address of memory, MEM_SIZE - 1 (00_scope.md rule R5, 20_memory.md rule R60). -/
def Config.lastAddr : Nat := 0xFFF

/-- FONT_END, the last address of the font region (00_scope.md rule R5, 20_memory.md rule R64). -/
def Config.fontEnd : Nat := 0x04F

/-- STRICT_UNKNOWN, "Boolean, default false" (00_scope.md rule R8). The cycle takes it as an argument
(`Machine.stepWith`); this is the default that `Machine.step` gives it. DESIGN CHOICE, log 2; unsafe for a block configured
strict when a claim is about `step`, safe for a claim about `stepWith`. -/
def Config.strictUnknown : Bool := false

/-- The draw of `random_byte()` at the k-th Cxnn of a run (00_scope.md rule R7, 43_family9_C.md rule R193): a FREE VALUE.
The constant has no body that Lean can see, so a claim holds for every sequence of draws. DESIGN CHOICE, log 3; safe. -/
opaque Config.randomByte : Nat → Byte

/-- Glyphs 0 to 3 of the font (20_memory.md rule R65). PRESUMED, log 9; unsafe. -/
def Config.font0to3 : List Byte :=
  [0xF0#8, 0x90#8, 0x90#8, 0x90#8, 0xF0#8] ++ [0x20#8, 0x60#8, 0x20#8, 0x20#8, 0x70#8] ++
  [0xF0#8, 0x10#8, 0xF0#8, 0x80#8, 0xF0#8] ++ [0xF0#8, 0x10#8, 0xF0#8, 0x10#8, 0xF0#8]

/-- Glyphs 4 to 7 of the font (20_memory.md rule R65). PRESUMED, log 9; unsafe. -/
def Config.font4to7 : List Byte :=
  [0x90#8, 0x90#8, 0xF0#8, 0x10#8, 0x10#8] ++ [0xF0#8, 0x80#8, 0xF0#8, 0x10#8, 0xF0#8] ++
  [0xF0#8, 0x80#8, 0xF0#8, 0x90#8, 0xF0#8] ++ [0xF0#8, 0x10#8, 0x20#8, 0x40#8, 0x40#8]

/-- Glyphs 8 to B of the font (20_memory.md rule R65). PRESUMED, log 9; unsafe. -/
def Config.font8toB : List Byte :=
  [0xF0#8, 0x90#8, 0xF0#8, 0x90#8, 0xF0#8] ++ [0xF0#8, 0x90#8, 0xF0#8, 0x10#8, 0xF0#8] ++
  [0xF0#8, 0x90#8, 0xF0#8, 0x90#8, 0x90#8] ++ [0xE0#8, 0x90#8, 0xE0#8, 0x90#8, 0xE0#8]

/-- Glyphs C to F of the font (20_memory.md rule R65). PRESUMED, log 9; unsafe. -/
def Config.fontCtoF : List Byte :=
  [0xF0#8, 0x80#8, 0x80#8, 0x80#8, 0xF0#8] ++ [0xE0#8, 0x90#8, 0x90#8, 0x90#8, 0xE0#8] ++
  [0xF0#8, 0x80#8, 0xF0#8, 0x80#8, 0xF0#8] ++ [0xF0#8, 0x80#8, 0xF0#8, 0x80#8, 0x80#8]

/-- The 80 bytes of the font, glyph d at 5·d .. 5·d + 4 (20_memory.md rule R65). PRESUMED, log 9; unsafe. -/
def Config.fontBytes : List Byte :=
  Config.font0to3 ++ Config.font4to7 ++ Config.font8toB ++ Config.fontCtoF

end Sys2Proof
end

