-- ==== Sys2Proof/Syntax.lean ====
section
/-! DEFINITION. The instructions: one constructor per row of spec/opcode_table.json, in the table's order
(30_encoding.md rule R96). A constructor holds the row's "fields" of the table. The ignored bits that the table gives no
field (x of 00E0 and 00EE, n of 5xyn and 9xyn, rule R97) are not held; y of 8xy6 and 8xyE, which the table lists as a field
that is encoded but not read, is (log 19). -/

namespace Sys2Proof

/-- One instruction of 30_encoding.md rule R96, with its operands (rule R94). -/
inductive Instr where
  /-- 00E0 CLS (R130). -/
  | cls
  /-- 00EE RET (R131). -/
  | ret
  /-- 1nnn JP nnn (R132). -/
  | jp (nnn : Addr12)
  /-- 2nnn CALL nnn (R133). -/
  | call (nnn : Addr12)
  /-- 3xnn SE Vx, nn (R150). -/
  | seImm (x : Reg) (nn : Byte)
  /-- 4xnn SNE Vx, nn (R151). -/
  | sneImm (x : Reg) (nn : Byte)
  /-- 5xyn SE Vx, Vy (R152). -/
  | seReg (x y : Reg)
  /-- 6xnn LD Vx, nn (R153). -/
  | ldImm (x : Reg) (nn : Byte)
  /-- 7xnn ADD Vx, nn (R154). -/
  | addImm (x : Reg) (nn : Byte)
  /-- 8xy0 LD Vx, Vy (R171). -/
  | ldReg (x y : Reg)
  /-- 8xy1 OR Vx, Vy (R172). -/
  | orReg (x y : Reg)
  /-- 8xy2 AND Vx, Vy (R173). -/
  | andReg (x y : Reg)
  /-- 8xy3 XOR Vx, Vy (R174). -/
  | xorReg (x y : Reg)
  /-- 8xy4 ADD Vx, Vy (R175). -/
  | addReg (x y : Reg)
  /-- 8xy5 SUB Vx, Vy (R176). -/
  | subReg (x y : Reg)
  /-- 8xy6 SHR Vx (R177); y is encoded but not read. -/
  | shr (x y : Reg)
  /-- 8xy7 SUBN Vx, Vy (R178). -/
  | subnReg (x y : Reg)
  /-- 8xyE SHL Vx (R179); y is encoded but not read. -/
  | shl (x y : Reg)
  /-- 9xyn SNE Vx, Vy (R190). -/
  | sneReg (x y : Reg)
  /-- Annn LD I, nnn (R191). -/
  | ldI (nnn : Addr12)
  /-- Bnnn JP V0, nnn (R192). -/
  | jpV0 (nnn : Addr12)
  /-- Cxnn RND Vx, nn (R193). -/
  | rnd (x : Reg) (nn : Byte)
  /-- Dxyn DRW Vx, Vy, n (R210). -/
  | drw (x y : Reg) (n : Nibble)
  /-- Ex9E SKP Vx (R230). -/
  | skp (x : Reg)
  /-- ExA1 SKNP Vx (R231). -/
  | sknp (x : Reg)
  /-- Fx07 LD Vx, DT (R232). -/
  | ldVxDt (x : Reg)
  /-- Fx0A LD Vx, K (R233). -/
  | ldVxK (x : Reg)
  /-- Fx15 LD DT, Vx (R234). -/
  | ldDtVx (x : Reg)
  /-- Fx18 LD ST, Vx (R235). -/
  | ldStVx (x : Reg)
  /-- Fx1E ADD I, Vx (R236). -/
  | addI (x : Reg)
  /-- Fx29 LD F, Vx (R237). -/
  | ldF (x : Reg)
  /-- Fx33 LD B, Vx (R238). -/
  | ldB (x : Reg)
  /-- Fx55 LD [I], Vx (R239). -/
  | ldMemVx (x : Reg)
  /-- Fx65 LD Vx, [I] (R240). -/
  | ldVxMem (x : Reg)
deriving DecidableEq, Repr

end Sys2Proof
end

