-- ==== Sys2Proof/WellFormed.lean ====
section
/-! DEFINITION. The checks on what is given to the machine from outside: an instruction word and a program image.
There is no check on a term of `Instr`: its fields have exactly the values 30_encoding.md rule R94 admits (any register 0..15
in either field, any byte, any 12-bit address, any height 0..15), so every term is well formed. -/

namespace Sys2Proof

/-- The words of families 0, 8, E and F that are an instruction, and every word of the other families: the complement of
the list of unknown words of 30_encoding.md rule R98, written from that list and not from the decoder. -/
def wordKnown (w : Word) : Bool :=
  let op := (w >>> 12).toNat
  let nn := (w &&& 0x00FF#16).toNat
  let n := (w &&& 0x000F#16).toNat
  if op = 0x0 then decide (nn ∈ [0xE0, 0xEE])
  else if op = 0x8 then decide (n ∉ [0x8, 0x9, 0xA, 0xB, 0xC, 0xD, 0xF])
  else if op = 0xE then decide (nn ∈ [0x9E, 0xA1])
  else if op = 0xF then decide (nn ∈ [0x07, 0x0A, 0x15, 0x18, 0x1E, 0x29, 0x33, 0x55, 0x65])
  else true

/-- A program image fits into 0x200..0xFFF (70_reset_and_hazards.md rule R322). -/
def imageFits (image : List Byte) : Bool :=
  decide (image.length + Config.progBase ≤ 4096)

end Sys2Proof
end

