-- ==== Sys2Proof/Decode.lean ====
section
/-! DEFINITION. The decoder and the encoder (30_encoding.md rules R90 to R101), and the opcode map of rule R96 as a table of
match and mask. The decoder follows the procedure of rule R95: family by op, then nn or n. -/

namespace Sys2Proof

/-! ### Fields (rule R92) -/

/-- op = w[15:12], the family (rule R92). -/
def opOf (w : Word) : Nibble := w.extractLsb' 12 4

/-- The register field w[11:8], the index x (rule R92). -/
def xOf (w : Word) : Reg := (w.extractLsb' 8 4).toFin

/-- The register field w[7:4], the index y (rule R92). -/
def yOf (w : Word) : Reg := (w.extractLsb' 4 4).toFin

/-- n = w[3:0] (rule R92). -/
def nOf (w : Word) : Nibble := w.extractLsb' 0 4

/-- nn = w[7:0] (rule R92). -/
def nnOf (w : Word) : Byte := w.extractLsb' 0 8

/-- nnn = w[11:0] (rule R92). -/
def nnnOf (w : Word) : Addr12 := w.extractLsb' 0 12

/-- The bits of a register field. -/
def regBits (x : Reg) : Nibble := BitVec.ofFin x

/-- The high byte of a word, w[15:8] (rule R91). -/
def hiByte (w : Word) : Byte := w.extractLsb' 8 8

/-- The low byte of a word, w[7:0] (rule R91). -/
def loByte (w : Word) : Byte := w.extractLsb' 0 8

/-- Word assembly, big-endian: `hi ++ lo` (rule R91). -/
def assemble (hi lo : Byte) : Word := hi ++ lo

/-! ### The decoder (rules R95, R98) -/

/-- Why the decoder gives no instruction. -/
inductive DecodeReject where
  /-- Fewer than two bytes: no whole word (rule R90). Raised by `decode` only; a step always fetches two bytes. Safe. -/
  | truncated
  /-- A word that matches no row (rule R98). Raised by `decodeWord`; rule R99 says what a step does with it. Safe. -/
  | unknownWord (w : Word)
deriving DecidableEq, Repr

/-- Family 0 selects by nn; the x field takes no part (rules R95, R97). -/
def decodeFamily0 (w : Word) : Except DecodeReject Instr :=
  match nnOf w with
  | 0xE0#8 => .ok .cls
  | 0xEE#8 => .ok .ret
  | _ => .error (.unknownWord w)

/-- Family 8 selects by n (rule R95). -/
def decodeFamily8 (w : Word) : Except DecodeReject Instr :=
  match nOf w with
  | 0x0#4 => .ok (.ldReg (xOf w) (yOf w))
  | 0x1#4 => .ok (.orReg (xOf w) (yOf w))
  | 0x2#4 => .ok (.andReg (xOf w) (yOf w))
  | 0x3#4 => .ok (.xorReg (xOf w) (yOf w))
  | 0x4#4 => .ok (.addReg (xOf w) (yOf w))
  | 0x5#4 => .ok (.subReg (xOf w) (yOf w))
  | 0x6#4 => .ok (.shr (xOf w) (yOf w))
  | 0x7#4 => .ok (.subnReg (xOf w) (yOf w))
  | 0xE#4 => .ok (.shl (xOf w) (yOf w))
  | _ => .error (.unknownWord w)

/-- Family E selects by nn (rule R95). -/
def decodeFamilyE (w : Word) : Except DecodeReject Instr :=
  match nnOf w with
  | 0x9E#8 => .ok (.skp (xOf w))
  | 0xA1#8 => .ok (.sknp (xOf w))
  | _ => .error (.unknownWord w)

/-- Family F selects by nn (rule R95). -/
def decodeFamilyF (w : Word) : Except DecodeReject Instr :=
  match nnOf w with
  | 0x07#8 => .ok (.ldVxDt (xOf w))
  | 0x0A#8 => .ok (.ldVxK (xOf w))
  | 0x15#8 => .ok (.ldDtVx (xOf w))
  | 0x18#8 => .ok (.ldStVx (xOf w))
  | 0x1E#8 => .ok (.addI (xOf w))
  | 0x29#8 => .ok (.ldF (xOf w))
  | 0x33#8 => .ok (.ldB (xOf w))
  | 0x55#8 => .ok (.ldMemVx (xOf w))
  | 0x65#8 => .ok (.ldVxMem (xOf w))
  | _ => .error (.unknownWord w)

/-- The instruction of a word (rule R95). It depends on the word alone (rule R101). Families 1..7 and 9..D have one
instruction each and select nothing, so the n bits of families 5 and 9 take no part (rule R97). -/
def decodeWord (w : Word) : Except DecodeReject Instr :=
  match opOf w with
  | 0x0#4 => decodeFamily0 w
  | 0x1#4 => .ok (.jp (nnnOf w))
  | 0x2#4 => .ok (.call (nnnOf w))
  | 0x3#4 => .ok (.seImm (xOf w) (nnOf w))
  | 0x4#4 => .ok (.sneImm (xOf w) (nnOf w))
  | 0x5#4 => .ok (.seReg (xOf w) (yOf w))
  | 0x6#4 => .ok (.ldImm (xOf w) (nnOf w))
  | 0x7#4 => .ok (.addImm (xOf w) (nnOf w))
  | 0x8#4 => decodeFamily8 w
  | 0x9#4 => .ok (.sneReg (xOf w) (yOf w))
  | 0xA#4 => .ok (.ldI (nnnOf w))
  | 0xB#4 => .ok (.jpV0 (nnnOf w))
  | 0xC#4 => .ok (.rnd (xOf w) (nnOf w))
  | 0xD#4 => .ok (.drw (xOf w) (yOf w) (nOf w))
  | 0xE#4 => decodeFamilyE w
  | 0xF#4 => decodeFamilyF w
  | _ => .error (.unknownWord w)

/-- Decoding bytes: the first byte is the high byte of the word (rule R91); the rest of the bytes is given back. -/
def decode : List Byte → Except DecodeReject (Instr × List Byte)
  | hi :: lo :: rest =>
    match decodeWord (assemble hi lo) with
    | .ok i => .ok (i, rest)
    | .error e => .error e
  | _ => .error .truncated

/-! ### The encoder (rules R93, R96) -/

/-- Format A: op, nnn (rule R93). -/
def packA (op : Nibble) (nnn : Addr12) : Word := op ++ nnn

/-- Formats XK and XS: op, x, a byte (rule R93). -/
def packXK (op : Nibble) (x : Reg) (nn : Byte) : Word := op ++ regBits x ++ nn

/-- Formats XY, XYS and XYN: op, x, y, a nibble (rule R93). -/
def packXYN (op : Nibble) (x y : Reg) (n : Nibble) : Word := op ++ regBits x ++ regBits y ++ n

/-- The word of an instruction (rules R93 and R96). It writes 0 into every bit that belongs to no field of the constructor
(rule R102: the ignored fields). -/
def encode : Instr → Word
  | .cls => packXK 0x0#4 0 0xE0#8
  | .ret => packXK 0x0#4 0 0xEE#8
  | .jp nnn => packA 0x1#4 nnn
  | .call nnn => packA 0x2#4 nnn
  | .seImm x nn => packXK 0x3#4 x nn
  | .sneImm x nn => packXK 0x4#4 x nn
  | .seReg x y => packXYN 0x5#4 x y 0x0#4
  | .ldImm x nn => packXK 0x6#4 x nn
  | .addImm x nn => packXK 0x7#4 x nn
  | .ldReg x y => packXYN 0x8#4 x y 0x0#4
  | .orReg x y => packXYN 0x8#4 x y 0x1#4
  | .andReg x y => packXYN 0x8#4 x y 0x2#4
  | .xorReg x y => packXYN 0x8#4 x y 0x3#4
  | .addReg x y => packXYN 0x8#4 x y 0x4#4
  | .subReg x y => packXYN 0x8#4 x y 0x5#4
  | .shr x y => packXYN 0x8#4 x y 0x6#4
  | .subnReg x y => packXYN 0x8#4 x y 0x7#4
  | .shl x y => packXYN 0x8#4 x y 0xE#4
  | .sneReg x y => packXYN 0x9#4 x y 0x0#4
  | .ldI nnn => packA 0xA#4 nnn
  | .jpV0 nnn => packA 0xB#4 nnn
  | .rnd x nn => packXK 0xC#4 x nn
  | .drw x y n => packXYN 0xD#4 x y n
  | .skp x => packXK 0xE#4 x 0x9E#8
  | .sknp x => packXK 0xE#4 x 0xA1#8
  | .ldVxDt x => packXK 0xF#4 x 0x07#8
  | .ldVxK x => packXK 0xF#4 x 0x0A#8
  | .ldDtVx x => packXK 0xF#4 x 0x15#8
  | .ldStVx x => packXK 0xF#4 x 0x18#8
  | .addI x => packXK 0xF#4 x 0x1E#8
  | .ldF x => packXK 0xF#4 x 0x29#8
  | .ldB x => packXK 0xF#4 x 0x33#8
  | .ldMemVx x => packXK 0xF#4 x 0x55#8
  | .ldVxMem x => packXK 0xF#4 x 0x65#8

/-- The bytes of an instruction, high byte first (rule R91). -/
def encodeBytes (i : Instr) : List Byte := [hiByte (encode i), loByte (encode i)]

/-! ### The opcode map (rule R96) -/

/-- The mnemonic of an instruction, as spec/opcode_table.json spells it. -/
def mnemonicOf : Instr → String
  | .cls => "CLS"
  | .ret => "RET"
  | .jp _ => "JP_nnn"
  | .call _ => "CALL_nnn"
  | .seImm _ _ => "SE_Vx__nn"
  | .sneImm _ _ => "SNE_Vx__nn"
  | .seReg _ _ => "SE_Vx__Vy"
  | .ldImm _ _ => "LD_Vx__nn"
  | .addImm _ _ => "ADD_Vx__nn"
  | .ldReg _ _ => "LD_Vx__Vy"
  | .orReg _ _ => "OR_Vx__Vy"
  | .andReg _ _ => "AND_Vx__Vy"
  | .xorReg _ _ => "XOR_Vx__Vy"
  | .addReg _ _ => "ADD_Vx__Vy"
  | .subReg _ _ => "SUB_Vx__Vy"
  | .shr _ _ => "SHR_Vx"
  | .subnReg _ _ => "SUBN_Vx__Vy"
  | .shl _ _ => "SHL_Vx"
  | .sneReg _ _ => "SNE_Vx__Vy"
  | .ldI _ => "LD_I__nnn"
  | .jpV0 _ => "JP_V0__nnn"
  | .rnd _ _ => "RND_Vx__nn"
  | .drw _ _ _ => "DRW_Vx__Vy__n"
  | .skp _ => "SKP_Vx"
  | .sknp _ => "SKNP_Vx"
  | .ldVxDt _ => "LD_Vx__DT"
  | .ldVxK _ => "LD_Vx__K"
  | .ldDtVx _ => "LD_DT__Vx"
  | .ldStVx _ => "LD_ST__Vx"
  | .addI _ => "ADD_I__Vx"
  | .ldF _ => "LD_F__Vx"
  | .ldB _ => "LD_B__Vx"
  | .ldMemVx _ => "LD__I___Vx"
  | .ldVxMem _ => "LD_Vx___I"

/-- The row of rule R96 that an instruction belongs to: its match and its mask, written from the table. -/
def rowOf : Instr → Word × Word
  | .cls => (0x00E0#16, 0xF0FF#16)
  | .ret => (0x00EE#16, 0xF0FF#16)
  | .jp _ => (0x1000#16, 0xF000#16)
  | .call _ => (0x2000#16, 0xF000#16)
  | .seImm _ _ => (0x3000#16, 0xF000#16)
  | .sneImm _ _ => (0x4000#16, 0xF000#16)
  | .seReg _ _ => (0x5000#16, 0xF000#16)
  | .ldImm _ _ => (0x6000#16, 0xF000#16)
  | .addImm _ _ => (0x7000#16, 0xF000#16)
  | .ldReg _ _ => (0x8000#16, 0xF00F#16)
  | .orReg _ _ => (0x8001#16, 0xF00F#16)
  | .andReg _ _ => (0x8002#16, 0xF00F#16)
  | .xorReg _ _ => (0x8003#16, 0xF00F#16)
  | .addReg _ _ => (0x8004#16, 0xF00F#16)
  | .subReg _ _ => (0x8005#16, 0xF00F#16)
  | .shr _ _ => (0x8006#16, 0xF00F#16)
  | .subnReg _ _ => (0x8007#16, 0xF00F#16)
  | .shl _ _ => (0x800E#16, 0xF00F#16)
  | .sneReg _ _ => (0x9000#16, 0xF000#16)
  | .ldI _ => (0xA000#16, 0xF000#16)
  | .jpV0 _ => (0xB000#16, 0xF000#16)
  | .rnd _ _ => (0xC000#16, 0xF000#16)
  | .drw _ _ _ => (0xD000#16, 0xF000#16)
  | .skp _ => (0xE09E#16, 0xF0FF#16)
  | .sknp _ => (0xE0A1#16, 0xF0FF#16)
  | .ldVxDt _ => (0xF007#16, 0xF0FF#16)
  | .ldVxK _ => (0xF00A#16, 0xF0FF#16)
  | .ldDtVx _ => (0xF015#16, 0xF0FF#16)
  | .ldStVx _ => (0xF018#16, 0xF0FF#16)
  | .addI _ => (0xF01E#16, 0xF0FF#16)
  | .ldF _ => (0xF029#16, 0xF0FF#16)
  | .ldB _ => (0xF033#16, 0xF0FF#16)
  | .ldMemVx _ => (0xF055#16, 0xF0FF#16)
  | .ldVxMem _ => (0xF065#16, 0xF0FF#16)

/-- The bits of a word that belong to no field of its constructor: the x field of 00E0 and 00EE, the n field of 5xyn and
9xyn (rule R97). The y field of 8xy6 and 8xyE, also ignored, is a field of the constructor. -/
def ignoredMask : Instr → Word
  | .cls | .ret => 0x0F00#16
  | .seReg _ _ | .sneReg _ _ => 0x000F#16
  | .jp _ | .call _ | .seImm _ _ | .sneImm _ _ | .ldImm _ _ | .addImm _ _ => 0x0000#16
  | .ldReg _ _ | .orReg _ _ | .andReg _ _ | .xorReg _ _ | .addReg _ _ | .subReg _ _ => 0x0000#16
  | .shr _ _ | .subnReg _ _ | .shl _ _ | .ldI _ | .jpV0 _ | .rnd _ _ | .drw _ _ _ => 0x0000#16
  | .skp _ | .sknp _ | .ldVxDt _ | .ldVxK _ | .ldDtVx _ | .ldStVx _ | .addI _ => 0x0000#16
  | .ldF _ | .ldB _ | .ldMemVx _ | .ldVxMem _ => 0x0000#16

/-! ### The host's entry -/

/-- The bytes in memory of a table word: one 16-bit word, high byte first (rules R90, R91). -/
def tableBytes (nbits w : Nat) : List Byte :=
  let word : Word := BitVec.ofNat 16 (w % 2 ^ nbits)
  [hiByte word, loByte word]

/-- The instruction the decoder reads from a word of spec/opcode_table.json. -/
def decodeTableWord (nbits w : Nat) : Option Instr :=
  match decode (tableBytes nbits w) with
  | .ok (i, _) => some i
  | .error _ => none

end Sys2Proof
end

