-- ==== Sys2Proof/Machine/State.lean ====
section
/-! DEFINITION. The machine state (10_state.md rules R20 to R39), the fault records (60_exceptions.md rule R270), the reasons
a step can stop, and the state after reset (rule R39). -/

namespace Sys2Proof.Machine

/-- Memory (10_state.md rule R36): the bytes that differ from the contents at construction, as (address, byte) pairs with
addresses strictly rising (`Memory.wf` in Machine/Ops.lean). An unlisted address reads as `initialByte`, its byte at
construction. -/
abbrev Memory := List Host.Cell

/-- The framebuffer, row-major: 32 rows of 64 pixels (10_state.md rule R34); `fb[px][py]` of the spec is column px of row py
(log 30). -/
abbrev Framebuffer := Vector (Vector Bool 64) 32

/-- Every pixel false (10_state.md rule R34). -/
def Framebuffer.blank : Framebuffer := Vector.replicate 32 (Vector.replicate 64 false)

/-- Where an out-of-range index points (60_exceptions.md rule R270, `space`). -/
inductive Space where
  /-- A memory address (20_memory.md rules R62, R63). -/
  | mem
  /-- An index into the input latch (45_familyE_F.md rules R230, R231). -/
  | key
deriving DecidableEq, Repr

/-- A fault record: the kind and its info (60_exceptions.md rule R270). `addr` is old_PC, the address of the faulting
instruction. These are the spec's faults; a step that raises one records it in `State.fault` (log 1). -/
inductive FaultRecord where
  /-- Code 1: `load` of a program that does not fit (R322). The load is rejected; no step raises it. -/
  | oversizeProgram (length : Nat)
  /-- Code 2: 2nnn with SP = 16 (R133). -/
  | stackOverflow (addr : Word)
  /-- Code 3: 00EE with SP = 0 (R131). -/
  | stackUnderflow (addr : Word)
  /-- Code 4: a fetch, a Dxyn, Fx33, Fx55, Fx65 access, or the key index of Ex9E or ExA1 (R272). -/
  | addressOutOfRange (space : Space) (index : Nat) (addr : Word)
  /-- Code 5: an unknown word under STRICT_UNKNOWN (R99). -/
  | unknownOpcode (word : Word) (addr : Word)
deriving DecidableEq, Repr

/-- Why the model takes no step (`Host.Outcome.fault`). -/
inductive Fault where
  /-- Raised by `step` alone, in a state whose `fault` is already set: "no further step is taken until reset"
  (10_state.md rule R37, 60_exceptions.md rule R273). Safe: the spec gives such a state no successor (log 1). -/
  | halted (record : FaultRecord)
  /-- Raised by CALL and RET when SP is 17..255, the reserved values that 10_state.md rule R33 says cannot be reached: the
  stack has no such entry. Safe: no run reaches it (log 23). -/
  | reservedStackPointer
deriving DecidableEq, Repr

/-- Why the model has no meaning for an instruction (`Host.Outcome.refused`). -/
inductive Refusal where
  /-- An instruction with no meaning yet, answered by its arm of `exec` alone. Safe. No arm of this model answers it. -/
  | notModelled (mnemonic : String)
deriving DecidableEq, Repr

/-- The machine state: one aggregate, holding exactly the components of 10_state.md rule R20, and `draws`. -/
structure State where
  /-- mem (R36): 4096 bytes. -/
  mem : Memory
  /-- V0..VF (R21), VF the flag (R22). -/
  v : Vector Byte 16
  /-- I, the index register (R24). -/
  i : Word
  /-- PC (R25): between steps, the address of the next instruction to fetch. -/
  pc : Word
  /-- SP (R28): the number of return addresses held, legal values 0..16. -/
  sp : Byte
  /-- The return-address stack (R29), not part of memory. -/
  stack : Vector Word 16
  /-- DT, the delay timer (R31). -/
  dt : Byte
  /-- ST, the sound timer (R32). -/
  st : Byte
  /-- fb, the framebuffer (R34). -/
  fb : Framebuffer
  /-- key, the input latch (R35), written only by the host. -/
  key : Vector Bool 16
  /-- fault: none, or the record of the fault that halted the machine (R20, R37, R273). -/
  fault : Option FaultRecord
  /-- The model's own field: how many random draws were taken, the argument of `Config.randomByte` for the next (log 3). -/
  draws : Nat
deriving DecidableEq, Repr

/-- What a meaning, a cycle and a step answer. -/
abbrev Result := Host.Outcome State Fault Refusal

/-- The state after reset, that is, after `construct()` (10_state.md rule R39, 70_reset_and_hazards.md rule R320). The source
gives PC, SP, the timers, the framebuffer and the latch; V, I, the stack and the rest of memory are DESIGN CHOICE
(decisions D2 to D5, logs 5 to 8), the font bytes PRESUMED (decision D6, log 9), `draws` the model's own (log 3). -/
def State.reset : State where
  mem := []
  v := Vector.replicate 16 0x00#8
  i := 0x0000#16
  pc := 0x0200#16
  sp := 0#8
  stack := Vector.replicate 16 0x0000#16
  dt := 0#8
  st := 0#8
  fb := Framebuffer.blank
  key := Vector.replicate 16 false
  fault := none
  draws := 0

end Sys2Proof.Machine
end

