-- ==== Sys2Proof/Machine/Operands.lean ====
section
/-! DEFINITION. Operand assembly (30_encoding.md rule R94) and register operands (10_state.md rule R21): nothing is
sign-extended, scaled or shifted. -/

namespace Sys2Proof.Machine

/-- `zext_16(nnn)`: a 12-bit address as a 16-bit one (R94). -/
def addrOperand (nnn : Addr12) : Word := nnn.setWidth 16

/-- `zext_16` of a register value, where it is added to a 16-bit value (R94, "the 8-bit value is zero-extended first"). -/
def wordOfByte (b : Byte) : Word := b.setWidth 16

/-- Reading `V[x]` (R21): the one place a V register is read by its number. -/
def State.getV (s : State) (x : Reg) : Byte := s.v[x.val]

/-- `V[x] <- b` (R21): the one place a V register is written by its number. -/
def State.setV (s : State) (x : Reg) (b : Byte) : State := { s with v := s.v.set x.val b }

/-- V[0..x], inclusive, in order: the registers Fx55 stores (45_familyE_F.md rule R239). -/
def State.regsUpTo (s : State) (x : Reg) : List Byte := s.v.toList.take (x.val + 1)

/-- `V[k], V[k+1], … <- bytes`: the registers Fx65 loads (45_familyE_F.md rule R240). A register number is at most 15, so
`Fin.ofNat` does not wrap for the x + 1 bytes of Fx65 from k = 0. -/
def State.loadRegs (s : State) (k : Nat) : List Byte → State
  | [] => s
  | b :: bs => (s.setV (Fin.ofNat 16 k) b).loadRegs (k + 1) bs

end Sys2Proof.Machine
end

