-- ==== Sys2Proof/Machine/Flags.lean ====
section
/-! DEFINITION. The flag values (10_state.md rule R30), each computed on exact unsigned numbers from the old operands
(42_family8_alu.md rules R170 and R180), and the one order in which result and flag are written (R170, decision D8, log 14).
The collision flag of Dxyn is computed with the draw (Machine/FamilyD.lean). -/

namespace Sys2Proof.Machine

/-- A flag value, 1 or 0. -/
def flagByte (b : Bool) : Byte := if b then 1#8 else 0#8

/-- Carry out of bit 7: `(a + b > 255) ? 1 : 0` (R175). -/
def carryFlag (a b : Byte) : Byte := flagByte (decide (a.toNat + b.toNat > 255))

/-- No borrow of a - b: `(a >= b) ? 1 : 0` (R176, R178). -/
def noBorrowFlag (a b : Byte) : Byte := flagByte (decide (a.toNat ≥ b.toNat))

/-- The bit shifted out by SHR: `a & 1`, old bit 0 (R177). -/
def lowBitFlag (a : Byte) : Byte := a &&& 1#8

/-- The bit shifted out by SHL: `(a >> 7) & 1`, old bit 7 (R179). -/
def highBitFlag (a : Byte) : Byte := (a >>> 7) &&& 1#8

/-- Carry out of bit 15 of I: `(old_I + old_V[x] > 0xFFFF) ? 1 : 0` (45_familyE_F.md rule R236, decision D11, log 17). -/
def indexCarryFlag (i : Word) (b : Byte) : Byte := flagByte (decide (i.toNat + b.toNat > 0xFFFF))

/-- The result into V[x], then the flag into VF, so that for x = F the flag is left (R170). -/
def State.setVFlag (s : State) (x : Reg) (result flag : Byte) : State := (s.setV x result).setV VF flag

end Sys2Proof.Machine
end

