-- ==== Sys2Proof/Machine/Ops.lean ====
section
/-! DEFINITION. The named operations every instruction is written with: raising a fault, advancing PC, memory, the stack,
pixels, keys, the timers and the fetch. -/

namespace Sys2Proof.Machine

/-! ### Faults: the only exception this machine takes -/

/-- `raise F(info)` (00_scope.md section 5, 30_encoding.md rule R104, 60_exceptions.md rule R273): the state is unchanged but
for `fault`, which records the fault. No trap is entered: no register is saved, PC stays (R277), and there is no return
from it (R278). -/
def State.raise (s : State) (r : FaultRecord) : State := { s with fault := some r }

/-- A meaning that raises r: the next state is the halted one (log 1). -/
def raised (s : State) (r : FaultRecord) : Result := .next (s.raise r)

/-- AddressOutOfRange for a memory address, at the instruction at PC (60_exceptions.md rules R270, R272). -/
def raisedMem (s : State) (bad : Nat) : Result := raised s (.addressOutOfRange .mem bad s.pc)

/-- AddressOutOfRange for a key index, at the instruction at PC (60_exceptions.md rules R270, R272 (e)). -/
def raisedKey (s : State) (k : Nat) : Result := raised s (.addressOutOfRange .key k s.pc)

/-- The cause code of a record (60_exceptions.md rule R270, decision D15). -/
def faultCode : FaultRecord → Nat
  | .oversizeProgram _ => 1
  | .stackOverflow _ => 2
  | .stackUnderflow _ => 3
  | .addressOutOfRange _ _ _ => 4
  | .unknownOpcode _ _ => 5

/-! ### PC (10_state.md rule R26) -/

/-- Default: `PC <- trunc_16(old_PC + 2)`. -/
def State.advance (s : State) : State := { s with pc := s.pc + 2#16 }

/-- Skip: `trunc_16(old_PC + 4)` when the condition holds, `trunc_16(old_PC + 2)` otherwise. -/
def State.skipIf (s : State) (c : Bool) : State := { s with pc := s.pc + (if c then 4#16 else 2#16) }

/-- Direct: `PC <- target`, with no +2 added. -/
def State.jumpTo (s : State) (target : Word) : State := { s with pc := target }

/-! ### Memory (20_memory.md) -/

/-- The byte at address a at construction, which is what an unlisted address reads as: the font at 0x000..0x04F (rule R65)
and 0x00 elsewhere (rule R64, decision D5, log 8). -/
def initialByte (a : Nat) : Byte := Config.fontBytes.getD a 0x00#8

/-- The byte at an address of memory. -/
def Memory.read : Memory → Nat → Byte
  | [], a => initialByte a
  | (k, b) :: m, a => if k = a then b else Memory.read m a

/-- The list without any entry for address a: a then reads as at construction. -/
def Memory.erase (m : Memory) (a : Nat) : Memory := m.filter (fun cell => cell.1 != a)

/-- The list with an entry for address a, before the first higher address. -/
def Memory.insert : Memory → Nat → Byte → Memory
  | [], a, b => [(a, b)]
  | (k, c) :: m, a, b => if k < a then (k, c) :: Memory.insert m a b else (a, b) :: (k, c) :: m

/-- Storing a byte: addresses stay rising, and an entry equal to the byte at construction is not listed. -/
def Memory.write (m : Memory) (a : Nat) (b : Byte) : Memory :=
  if b = initialByte a then Memory.erase m a else Memory.insert (Memory.erase m a) a b

/-- The canonical form from address lo up: strictly rising, inside memory, no entry equal to the byte at construction. -/
def Memory.wfFrom (lo : Nat) : Memory → Bool
  | [] => true
  | (k, b) :: m => decide (lo ≤ k) && decide (k ≤ Config.lastAddr) && decide (b ≠ initialByte k) && Memory.wfFrom (k + 1) m

/-- The canonical form of memory. -/
def Memory.wf (m : Memory) : Bool := Memory.wfFrom 0 m

/-- The n bytes from address a, lowest first. -/
def Memory.readBytes (m : Memory) (a : Nat) : Nat → List Byte
  | 0 => []
  | n + 1 => m.read a :: m.readBytes (a + 1) n

/-- Storing bytes from address a, lowest first. -/
def Memory.writeBytes (m : Memory) (a : Nat) : List Byte → Memory
  | [] => m
  | b :: bs => (m.write a b).writeBytes (a + 1) bs

/-- MemRead does not fault at this address (rule R62). -/
def readable (a : Nat) : Bool := decide (a ≤ Config.lastAddr)

/-- MemWrite does not fault at this address: inside memory and above the font region (rule R63, decision D16, log 10). -/
def writable (a : Nat) : Bool := decide (a ≤ Config.lastAddr) && decide (Config.fontEnd < a)

/-- The lowest of the addresses a, …, a + n - 1 that is not ok (rule R69: "the lowest such address"). -/
def firstBad (ok : Nat → Bool) (a : Nat) : Nat → Option Nat
  | 0 => none
  | n + 1 => if ok a then firstBad ok (a + 1) n else some a

/-- MemRead (rule R62): the byte, or the address out of range. -/
def State.memRead (s : State) (a : Nat) : Except Nat Byte :=
  if readable a then .ok (s.mem.read a) else .error a

/-- The n reads of one instruction from address a (rules R62, R69): every address is checked before any is read. -/
def State.readBlock (s : State) (a n : Nat) : Except Nat (List Byte) :=
  match firstBad readable a n with
  | some bad => .error bad
  | none => .ok (s.mem.readBytes a n)

/-- The writes of one instruction from address a (rules R63, R69): every address is checked before any is written. -/
def State.writeBlock (s : State) (a : Nat) (bytes : List Byte) : Except Nat State :=
  match firstBad writable a bytes.length with
  | some bad => .error bad
  | none => .ok { s with mem := s.mem.writeBytes a bytes }

/-! ### The return stack (10_state.md rules R28, R29) -/

/-- `stack[SP] <- w; SP <- SP + 1`, where SP < 16. -/
def State.push (s : State) (w : Word) (h : s.sp.toNat < 16) : State :=
  { s with stack := s.stack.set s.sp.toNat w, sp := s.sp + 1#8 }

/-- `stack[SP - 1]`, where SP ≤ 16. -/
def State.topOfStack (s : State) (h : s.sp.toNat ≤ 16) : Word := s.stack[s.sp.toNat - 1]

/-- `SP <- SP - 1`; the popped entry is not cleared (40_family0_2.md rule R131). -/
def State.pop (s : State) : State := { s with sp := s.sp - 1#8 }

/-! ### Pixels (10_state.md rule R34) -/

/-- `fb[px][py]`: column px of row py. -/
def Framebuffer.pixel (fb : Framebuffer) (px : Fin 64) (py : Fin 32) : Bool := fb[py.val][px.val]

/-- `fb[px][py] <- b`. -/
def Framebuffer.setPixel (fb : Framebuffer) (px : Fin 64) (py : Fin 32) (b : Bool) : Framebuffer :=
  fb.set py.val (fb[py.val].set px.val b)

/-! ### The input latch (10_state.md rule R35) -/

/-- `key[k]`. -/
def State.keyDown (s : State) (k : Fin 16) : Bool := s.key[k.val]

/-- `min { k | key[k] }`, or none when no key is down (45_familyE_F.md rule R233). -/
def State.lowestKey (s : State) : Option Nat := s.key.toList.findIdx? (fun down => down)

/-! ### The random draw (00_scope.md rule R7) -/

/-- The draw r that the next Cxnn takes. -/
def State.drawByte (s : State) : Byte := Config.randomByte s.draws

/-- The state after a draw: the next one is fresh. -/
def State.afterDraw (s : State) : State := { s with draws := s.draws + 1 }

/-! ### The timers (60_exceptions.md rule R280) -/

/-- One timer's tick: "floor at 0, never wraps negative". -/
def tickByte (t : Byte) : Byte := if t = 0#8 then 0#8 else t - 1#8

/-- `timer_tick()`. -/
def State.timerTick (s : State) : State := { s with dt := tickByte s.dt, st := tickByte s.st }

/-! ### The fetch (30_encoding.md rules R91, R104) -/

/-- `hi <- MemRead(PC, 1); lo <- MemRead(PC + 1, 1); w <- hi ++ lo`, the address PC + 1 without truncation: the word, or the
first address out of range. -/
def State.fetch (s : State) : Except Nat Word :=
  match s.memRead s.pc.toNat with
  | .error bad => .error bad
  | .ok hi =>
    match s.memRead (s.pc.toNat + 1) with
    | .error bad => .error bad
    | .ok lo => .ok (assemble hi lo)

end Sys2Proof.Machine
end

