-- ==== Sys2Proof/Machine/Family0to2.lean ====
section
/-! DEFINITION. Families 0x0 to 0x2 (40_family0_2.md): clear, return, jump, call. -/

namespace Sys2Proof.Machine

/-- 00E0 CLS (R130): every pixel false. -/
def execCls (s : State) : Result := .next { s with fb := Framebuffer.blank }.advance

/-- 00EE RET (R131): `SP <- SP - 1; PC <- stack[SP]`, no +2; StackUnderflow when SP = 0. The reserved values 17..255 of SP
stop by name (log 23). -/
def execRet (s : State) : Result :=
  if s.sp = 0#8 then raised s (.stackUnderflow s.pc)
  else if h : s.sp.toNat ≤ 16 then .next (s.pop.jumpTo (s.topOfStack h))
  else .fault .reservedStackPointer

/-- 1nnn JP nnn (R132). -/
def execJp (nnn : Addr12) (s : State) : Result := .next (s.jumpTo (addrOperand nnn))

/-- 2nnn CALL nnn (R133): pushes old_PC + 2 (90_conflicts.md C1) and jumps; StackOverflow when SP = 16. The reserved values
17..255 of SP stop by name (log 23). -/
def execCall (nnn : Addr12) (s : State) : Result :=
  if s.sp = 16#8 then raised s (.stackOverflow s.pc)
  else if h : s.sp.toNat < 16 then .next ((s.push (s.pc + 2#16) h).jumpTo (addrOperand nnn))
  else .fault .reservedStackPointer

end Sys2Proof.Machine
end

