-- ==== Sys2Proof/Machine/Family3to7.lean ====
section
/-! DEFINITION. Families 0x3 to 0x7 (41_family3_7.md): skips on compare, load and add immediate. -/

namespace Sys2Proof.Machine

/-- 3xnn SE Vx, nn (R150). -/
def execSeImm (x : Reg) (nn : Byte) (s : State) : Result := .next (s.skipIf (s.getV x == nn))

/-- 4xnn SNE Vx, nn (R151). -/
def execSneImm (x : Reg) (nn : Byte) (s : State) : Result := .next (s.skipIf (s.getV x != nn))

/-- 5xyn SE Vx, Vy (R152). -/
def execSeReg (x y : Reg) (s : State) : Result := .next (s.skipIf (s.getV x == s.getV y))

/-- 6xnn LD Vx, nn (R153). -/
def execLdImm (x : Reg) (nn : Byte) (s : State) : Result := .next (s.setV x nn).advance

/-- 7xnn ADD Vx, nn (R154): wraps, no flag. -/
def execAddImm (x : Reg) (nn : Byte) (s : State) : Result := .next (s.setV x (s.getV x + nn)).advance

end Sys2Proof.Machine
end

