-- ==== Sys2Proof/Machine/Family8.lean ====
section
/-! DEFINITION. Family 0x8 (42_family8_alu.md): the register ALU. Operands are read first, the result goes to V[x], the flag
to VF last (R170). -/

namespace Sys2Proof.Machine

/-- 8xy0 LD Vx, Vy (R171). -/
def execLdReg (x y : Reg) (s : State) : Result := .next (s.setV x (s.getV y)).advance

/-- 8xy1 OR Vx, Vy (R172): VF unchanged unless x = F (decision D7, log 13). -/
def execOrReg (x y : Reg) (s : State) : Result := .next (s.setV x (s.getV x ||| s.getV y)).advance

/-- 8xy2 AND Vx, Vy (R173): VF unchanged unless x = F (decision D7, log 13). -/
def execAndReg (x y : Reg) (s : State) : Result := .next (s.setV x (s.getV x &&& s.getV y)).advance

/-- 8xy3 XOR Vx, Vy (R174): VF unchanged unless x = F (decision D7, log 13). -/
def execXorReg (x y : Reg) (s : State) : Result := .next (s.setV x (s.getV x ^^^ s.getV y)).advance

/-- 8xy4 ADD Vx, Vy (R175). -/
def execAddReg (x y : Reg) (s : State) : Result :=
  .next (s.setVFlag x (s.getV x + s.getV y) (carryFlag (s.getV x) (s.getV y))).advance

/-- 8xy5 SUB Vx, Vy (R176). -/
def execSubReg (x y : Reg) (s : State) : Result :=
  .next (s.setVFlag x (s.getV x - s.getV y) (noBorrowFlag (s.getV x) (s.getV y))).advance

/-- 8xy6 SHR Vx (R177): the y field is not read. -/
def execShr (x _y : Reg) (s : State) : Result :=
  .next (s.setVFlag x (s.getV x >>> 1) (lowBitFlag (s.getV x))).advance

/-- 8xy7 SUBN Vx, Vy (R178). -/
def execSubnReg (x y : Reg) (s : State) : Result :=
  .next (s.setVFlag x (s.getV y - s.getV x) (noBorrowFlag (s.getV y) (s.getV x))).advance

/-- 8xyE SHL Vx (R179): the y field is not read. -/
def execShl (x _y : Reg) (s : State) : Result :=
  .next (s.setVFlag x (s.getV x <<< 1) (highBitFlag (s.getV x))).advance

end Sys2Proof.Machine
end

