-- ==== Sys2Proof/Machine/Family9toC.lean ====
section
/-! DEFINITION. Families 0x9 to 0xC (43_family9_C.md): register skip, index load, indexed jump, random. -/

namespace Sys2Proof.Machine

/-- 9xyn SNE Vx, Vy (R190). -/
def execSneReg (x y : Reg) (s : State) : Result := .next (s.skipIf (s.getV x != s.getV y))

/-- Annn LD I, nnn (R191). -/
def execLdI (nnn : Addr12) (s : State) : Result := .next { s with i := addrOperand nnn }.advance

/-- Bnnn JP V0, nnn (R192): not reduced modulo 0x1000; an out-of-range target faults at the next fetch (log 18). -/
def execJpV0 (nnn : Addr12) (s : State) : Result := .next (s.jumpTo (addrOperand nnn + wordOfByte (s.getV 0)))

/-- Cxnn RND Vx, nn (R193): the draw masked with nn; the draw is a free value (log 3). -/
def execRnd (x : Reg) (nn : Byte) (s : State) : Result := .next (s.afterDraw.setV x (s.drawByte &&& nn)).advance

end Sys2Proof.Machine
end

