-- ==== Sys2Proof/Machine/FamilyD.lean ====
section
/-! DEFINITION. Family 0xD (44_familyD_draw.md): the sprite draw, an XOR compositor with wrap on both axes. -/

namespace Sys2Proof.Machine

/-- What the draw changes while it runs: the framebuffer, and whether a collision was seen (VF, R212). -/
abbrev Canvas := Framebuffer × Bool

/-- One sprite bit (R210): a 1-bit flips its pixel, and raises the collision mark if the pixel was true. -/
def drawBit (canvas : Canvas) (px : Fin 64) (py : Fin 32) (bit : Bool) : Canvas :=
  if bit then (canvas.1.setPixel px py (!canvas.1.pixel px py), canvas.2 || canvas.1.pixel px py) else canvas

/-- One sprite row r (R210, R211): bit 7 - c lands at ((ox + c) mod 64, (oy + r) mod 32), c from 0 to 7. -/
def drawRow (ox oy r : Nat) (row : Byte) (canvas : Canvas) : Canvas :=
  (List.range 8).foldl
    (fun cv c => drawBit cv (Fin.ofNat 64 (ox + c)) (Fin.ofNat 32 (oy + r)) (row.getLsbD (7 - c))) canvas

/-- The sprite rows r, r + 1, … in order (R210). -/
def drawRows (ox oy r : Nat) : List Byte → Canvas → Canvas
  | [], canvas => canvas
  | row :: rows, canvas => drawRows ox oy (r + 1) rows (drawRow ox oy r row canvas)

/-- The draw's effect on the state: origins read before VF is written (decision D9, log 15); VF is 1 exactly if some 1-bit
landed on a true pixel (R212). -/
def State.drawSprite (s : State) (x y : Reg) (rows : List Byte) : State :=
  let canvas := drawRows (s.getV x).toNat (s.getV y).toNat 0 rows (s.fb, false)
  { s with fb := canvas.1 }.setV VF (flagByte canvas.2)

/-- Dxyn DRW Vx, Vy, n (R210): AddressOutOfRange, with no effect, when a sprite byte lies above 0xFFF (R69, log 11); n = 0
draws no row and reads nothing (R213, log 16). -/
def execDrw (x y : Reg) (n : Nibble) (s : State) : Result :=
  match s.readBlock s.i.toNat n.toNat with
  | .error bad => raisedMem s bad
  | .ok rows => .next (s.drawSprite x y rows).advance

end Sys2Proof.Machine
end

