-- ==== Sys2Proof/Machine/FamilyEF.lean ====
section
/-! DEFINITION. Families 0xE and 0xF (45_familyE_F.md): keys, timers, index, BCD, block store and load. -/

namespace Sys2Proof.Machine

/-- Ex9E SKP Vx (R230): AddressOutOfRange (key) when V[x] > 0xF (decision D17, log 12). -/
def execSkp (x : Reg) (s : State) : Result :=
  if h : (s.getV x).toNat < 16 then .next (s.skipIf (s.keyDown ⟨(s.getV x).toNat, h⟩))
  else raisedKey s (s.getV x).toNat

/-- ExA1 SKNP Vx (R231): AddressOutOfRange (key) when V[x] > 0xF (decision D17, log 12). -/
def execSknp (x : Reg) (s : State) : Result :=
  if h : (s.getV x).toNat < 16 then .next (s.skipIf (!s.keyDown ⟨(s.getV x).toNat, h⟩))
  else raisedKey s (s.getV x).toNat

/-- Fx07 LD Vx, DT (R232): DT before this step's tick. -/
def execLdVxDt (x : Reg) (s : State) : Result := .next (s.setV x s.dt).advance

/-- Fx0A LD Vx, K (R233): the lowest key that is down; with none down nothing changes and PC stays. -/
def execLdVxK (x : Reg) (s : State) : Result :=
  match s.lowestKey with
  | some k => .next (s.setV x (BitVec.ofNat 8 k)).advance
  | none => .next s

/-- Fx15 LD DT, Vx (R234): the step's tick comes after. -/
def execLdDtVx (x : Reg) (s : State) : Result := .next { s with dt := s.getV x }.advance

/-- Fx18 LD ST, Vx (R235): the step's tick comes after. -/
def execLdStVx (x : Reg) (s : State) : Result := .next { s with st := s.getV x }.advance

/-- Fx1E ADD I, Vx (R236): I wraps at 16 bits, VF the carry out of bit 15, written after I. -/
def execAddI (x : Reg) (s : State) : Result :=
  .next ({ s with i := s.i + wordOfByte (s.getV x) }.setV VF (indexCarryFlag s.i (s.getV x))).advance

/-- Fx29 LD F, Vx (R237): `I <- old_V[x] * 5`, exact in 16 bits; V[x] is not reduced to a nibble. -/
def execLdF (x : Reg) (s : State) : Result :=
  .next { s with i := BitVec.ofNat 16 ((s.getV x).toNat * 5) }.advance

/-- The decimal digits of a byte, hundreds first (R238). -/
def bcdDigits (b : Byte) : List Byte :=
  [BitVec.ofNat 8 (b.toNat / 100), BitVec.ofNat 8 (b.toNat / 10 % 10), BitVec.ofNat 8 (b.toNat % 10)]

/-- Fx33 LD B, Vx (R238): the digits to I, I + 1, I + 2, after the range check of all three (R69); I unchanged (log 13). -/
def execLdB (x : Reg) (s : State) : Result :=
  match s.writeBlock s.i.toNat (bcdDigits (s.getV x)) with
  | .error bad => raisedMem s bad
  | .ok t => .next t.advance

/-- Fx55 LD [I], Vx (R239): V[0..x] to memory from I, after the range check (R69); I unchanged (log 13). -/
def execLdMemVx (x : Reg) (s : State) : Result :=
  match s.writeBlock s.i.toNat (s.regsUpTo x) with
  | .error bad => raisedMem s bad
  | .ok t => .next t.advance

/-- Fx65 LD Vx, [I] (R240): memory from I to V[0..x], after the range check (R69); I unchanged (log 13). -/
def execLdVxMem (x : Reg) (s : State) : Result :=
  match s.readBlock s.i.toNat (x.val + 1) with
  | .error bad => raisedMem s bad
  | .ok bytes => .next (s.loadRegs 0 bytes).advance

end Sys2Proof.Machine
end

