-- ==== Sys2Proof/Machine/Cycle.lean ====
section
/-! DEFINITION. The instruction cycle (30_encoding.md rule R104), with STRICT_UNKNOWN as an argument (00_scope.md rule R8). -/

namespace Sys2Proof.Machine

/-- An unknown word (30_encoding.md rule R99): a no-op with the default step; under STRICT_UNKNOWN, UnknownOpcode. -/
def execUnknown (strict : Bool) (w : Word) (s : State) : Result :=
  if strict then raised s (.unknownOpcode w s.pc) else .next s.advance

/-- The end of a cycle (30_encoding.md rule R104, 60_exceptions.md rule R280): the timers tick, "only if nothing above
raised". -/
def endCycle : Result → Result
  | .next t => if t.fault = none then .next t.timerTick else .next t
  | .fault f => .fault f
  | .refused r => .refused r

/-- Decode and execute, before the tick (30_encoding.md rule R104). -/
def execWord (strict : Bool) (w : Word) (s : State) : Result :=
  match decodeWord w with
  | .ok i => exec i s
  | .error _ => execUnknown strict w s

/-- One cycle (30_encoding.md rule R104). A state whose `fault` is set has no step (60_exceptions.md rule R273); a fetch
that leaves memory raises AddressOutOfRange (60_exceptions.md rule R272 (a)). -/
def stepWith (strict : Bool) (s : State) : Result :=
  match s.fault with
  | some r => .fault (.halted r)
  | none =>
    match s.fetch with
    | .error bad => raisedMem s bad
    | .ok w => endCycle (execWord strict w s)

/-- A table word stored where the next fetch reads: its bytes at PC and PC + 1, and no fault recorded, since a halted machine
fetches nothing. It stands for the host's `load` (70_reset_and_hazards.md rules R322, R323; log 24), and runs on states
with PC ≤ 0xFFE. -/
def State.placeWord (s : State) (nbits w : Nat) : State :=
  { s with mem := s.mem.writeBytes s.pc.toNat (tableBytes nbits w), fault := none }

end Sys2Proof.Machine
end

