-- ==== Sys2Proof/Machine/Step.lean ====
section
/-! DEFINITION. One step, with STRICT_UNKNOWN at its default (00_scope.md rule R8). -/

namespace Sys2Proof.Machine

/-- `step()` (30_encoding.md rule R104). -/
def step (s : State) : Host.Outcome State Fault Refusal := stepWith Config.strictUnknown s

/-- s with a table word where step fetches its next instruction (`State.placeWord`). -/
def State.withFetchWord (s : State) (nbits w : Nat) : State := s.placeWord nbits w

end Sys2Proof.Machine
end

