-- ==== Sys2Proof/Machine/HostOps.lean ====
section
/-! DEFINITION. The host operations (60_exceptions.md rule R284), each acting between steps on the state as a whole step left
it (rule R285). `step` is in Machine/Step.lean. -/

namespace Sys2Proof.Machine

/-- `construct()`: a fresh state (70_reset_and_hazards.md rule R320). -/
def construct : State := State.reset

/-- `load(bytes)` (70_reset_and_hazards.md rule R322): the size check before any byte is copied; then bytes to 0x200 and up,
and nothing else changes. A rejected load gives OversizeProgram and no state: the state stays as it was. -/
def load (s : State) (image : List Byte) : Except FaultRecord State :=
  if imageFits image then .ok { s with mem := s.mem.writeBytes Config.progBase image }
  else .error (.oversizeProgram image.length)

/-- `set_keys(k[0..15])`: all 16 entries at once (10_state.md rule R35). -/
def setKeys (s : State) (keys : Vector Bool 16) : State := { s with key := keys }

/-- `read_framebuffer()`: a copy of every pixel. -/
def readFramebuffer (s : State) : Framebuffer := s.fb

/-- `read_timers()`: (DT, ST). -/
def readTimers (s : State) : Byte × Byte := (s.dt, s.st)

/-- `sound_active()`: ST ≠ 0 (60_exceptions.md rule R282). -/
def soundActive (s : State) : Bool := s.st != 0#8

/-- `read_fault()`: the fault record, or none. -/
def readFault (s : State) : Option FaultRecord := s.fault

/-- The boot sequence up to the first step (70_reset_and_hazards.md rule R323): construct, then load. -/
def boot (image : List Byte) : Except FaultRecord State := load construct image

end Sys2Proof.Machine
end

