-- ==== Sys2Proof/Safety.lean ====
section
/-! DEFINITION. What counts as a safe run, and the invariant of the machine, in the terms the statements use. -/

namespace Sys2Proof.Machine

/-- "Done" (70_reset_and_hazards.md rule R331 (c), decision D33, log 31): the word at PC is `1nnn` with nnn = PC. The
hardware does not stop there: further steps execute the same jump and tick the timers. -/
def State.Done (s : State) : Prop :=
  ∃ w nnn, s.fetch = .ok w ∧ decodeWord w = .ok (.jp nnn) ∧ addrOperand nnn = s.pc

/-- The font region reads as it did at construction: "the font region is never overwritten after construction"
(20_memory.md rule R63, decision D16). -/
def Memory.FontIntact (m : Memory) : Prop := ∀ a, a ≤ Config.fontEnd → m.read a = initialByte a

/-- The highest value PC can have (10_state.md rule R27). -/
def maxPc : Nat := 0x10FE

/-- The highest return address a program can push (40_family0_2.md rules R131, R133: a CALL at 0xFFE). -/
def maxReturn : Nat := 0x1000

/-- A fault record of a halted state was raised by a step, not by load, and names the address at PC: "PC still holds the
address of the faulting instruction" (60_exceptions.md rule R273). -/
def FaultRecord.At (pc : Word) : FaultRecord → Prop
  | .oversizeProgram _ => False
  | .stackOverflow addr => addr = pc
  | .stackUnderflow addr => addr = pc
  | .addressOutOfRange _ _ addr => addr = pc
  | .unknownOpcode _ addr => addr = pc

/-- The invariant of the machine: memory in canonical form, the font intact (R63), SP legal (R28), PC and every return address
in the range a program can give them (R27, R29), and a recorded fault at PC (R273). -/
structure State.Inv (s : State) : Prop where
  memWf : s.mem.wf = true
  font : s.mem.FontIntact
  sp : s.sp.toNat ≤ 16
  pc : s.pc.toNat ≤ maxPc
  stack : ∀ k : Fin 16, (s.stack[k.val]).toNat ≤ maxReturn
  fault : ∀ r, s.fault = some r → r.At s.pc

/-! ### What an instruction leaves, in the words of the statements -/

/-- t is s with V[x] = b and PC advanced by the default step; every other register and every other component is unchanged. -/
def State.WritesReg (s t : State) (x : Reg) (b : Byte) : Prop :=
  t.getV x = b ∧ (∀ z, z ≠ x → t.getV z = s.getV z) ∧ t = { s with v := t.v, pc := s.pc + 2#16 }

/-- t is s with the flag f in VF, the result b in V[x] unless x = F, and PC advanced by the default step; every other register
and every other component is unchanged (42_family8_alu.md rule R170). -/
def State.WritesRegFlag (s t : State) (x : Reg) (b f : Byte) : Prop :=
  t.getV VF = f ∧ (x ≠ VF → t.getV x = b) ∧ (∀ z, z ≠ x → z ≠ VF → t.getV z = s.getV z) ∧
    t = { s with v := t.v, pc := s.pc + 2#16 }

/-- The n-row sprite at I, drawn with origin (V[x], V[y]), has a 1-bit on pixel (px, py): bit 7 - c of row r lands on
((V[x] + c) mod 64, (V[y] + r) mod 32) (44_familyD_draw.md rule R211). -/
def State.SpriteOn (s : State) (x y : Reg) (n : Nibble) (px : Fin 64) (py : Fin 32) : Prop :=
  ∃ r c : Nat, r < n.toNat ∧ c < 8 ∧ px.val = ((s.getV x).toNat + c) % 64 ∧ py.val = ((s.getV y).toNat + r) % 32 ∧
    (s.mem.read (s.i.toNat + r)).getLsbD (7 - c) = true

/-- The instructions that write VF implicitly (10_state.md rule R22): 8xy4, 8xy5, 8xy6, 8xy7, 8xyE, Fx1E and Dxyn. -/
def writesVfAsFlag : Instr → Bool
  | .addReg _ _ | .subReg _ _ | .shr _ _ | .subnReg _ _ | .shl _ _ | .addI _ | .drw _ _ _ => true
  | .cls | .ret | .jp _ | .call _ | .seImm _ _ | .sneImm _ _ | .seReg _ _ | .ldImm _ _ | .addImm _ _ => false
  | .ldReg _ _ | .orReg _ _ | .andReg _ _ | .xorReg _ _ | .sneReg _ _ | .ldI _ | .jpV0 _ | .rnd _ _ => false
  | .skp _ | .sknp _ | .ldVxDt _ | .ldVxK _ | .ldDtVx _ | .ldStVx _ | .ldF _ | .ldB _ | .ldMemVx _ | .ldVxMem _ => false

/-- The registers an instruction writes by naming them in x (10_state.md rules R22 and R23). -/
def namesAsDestination (z : Reg) : Instr → Bool
  | .ldImm x _ | .addImm x _ | .ldReg x _ | .orReg x _ | .andReg x _ | .xorReg x _ | .addReg x _ | .subReg x _ => z == x
  | .shr x _ | .subnReg x _ | .shl x _ | .rnd x _ | .ldVxDt x | .ldVxK x => z == x
  | .ldVxMem x => decide (z ≤ x)
  | .cls | .ret | .jp _ | .call _ | .seImm _ _ | .sneImm _ _ | .seReg _ _ | .sneReg _ _ | .ldI _ | .jpV0 _ => false
  | .drw _ _ _ | .skp _ | .sknp _ | .ldDtVx _ | .ldStVx _ | .addI _ | .ldF _ | .ldB _ | .ldMemVx _ => false

/-- The instructions that can raise a fault of their own, beyond the fetch (60_exceptions.md rule R271). -/
def canRaise : Instr → Bool
  | .ret | .call _ | .drw _ _ _ | .ldB _ | .ldMemVx _ | .ldVxMem _ | .skp _ | .sknp _ => true
  | .cls | .jp _ | .seImm _ _ | .sneImm _ _ | .seReg _ _ | .ldImm _ _ | .addImm _ _ | .ldReg _ _ | .orReg _ _ => false
  | .andReg _ _ | .xorReg _ _ | .addReg _ _ | .subReg _ _ | .shr _ _ | .subnReg _ _ | .shl _ _ | .sneReg _ _ => false
  | .ldI _ | .jpV0 _ | .rnd _ _ | .ldVxDt _ | .ldVxK _ | .ldDtVx _ | .ldStVx _ | .addI _ | .ldF _ => false

end Sys2Proof.Machine
end

