-- ==== Sys2Proof/Certificates/Slice0/Obligations.lean ====
section
/-! DEFINITION. The statements for the provers. Each docstring names the rule of spec/ it formalises. An instruction's statement
has an encoding clause (the rule's match and mask), and for every state what `exec` answers; a record `{ s with … }` says
that every component it does not name is unchanged, every byte of memory among them. Where a clause rests on one of the spec's
own decisions D<n>, the docstring names it and the log entry. -/

open Sys2Proof Sys2Proof.Machine

/-! ### Encoding -/

/-- Words written from the encodings of R93 and R96, one for each of the sixteen families, decode to their instructions. -/
def Obligations.SpecWordsDecode : Prop :=
  decodeWord 0x00E0#16 = .ok .cls ∧ decodeWord 0x1300#16 = .ok (.jp 0x300#12) ∧
  decodeWord 0x220A#16 = .ok (.call 0x20A#12) ∧ decodeWord 0x3A42#16 = .ok (.seImm 10 0x42#8) ∧
  decodeWord 0x4308#16 = .ok (.sneImm 3 0x08#8) ∧ decodeWord 0x5120#16 = .ok (.seReg 1 2) ∧
  decodeWord 0x6AFF#16 = .ok (.ldImm 10 0xFF#8) ∧ decodeWord 0x7A01#16 = .ok (.addImm 10 0x01#8) ∧
  decodeWord 0x8014#16 = .ok (.addReg 0 1) ∧ decodeWord 0x9120#16 = .ok (.sneReg 1 2) ∧
  decodeWord 0xA123#16 = .ok (.ldI 0x123#12) ∧ decodeWord 0xB500#16 = .ok (.jpV0 0x500#12) ∧
  decodeWord 0xC30F#16 = .ok (.rnd 3 0x0F#8) ∧ decodeWord 0xD342#16 = .ok (.drw 3 4 2#4) ∧
  decodeWord 0xE2A1#16 = .ok (.sknp 2) ∧ decodeWord 0xF265#16 = .ok (.ldVxMem 2)

/-- Decoding the encoding of any instruction, with any bytes after it, gives it back with those bytes (R90, R93, R94, R96). -/
def Obligations.DecodeAfterEncode : Prop :=
  ∀ i : Instr, decodeWord (encode i) = .ok i ∧ ∀ rest, decode (encodeBytes i ++ rest) = .ok (i, rest)

/-- R95: a word is the instruction of a row exactly when (w & mask) = match for that row; a word that matches no row is
unknown. -/
def Obligations.DecodeFollowsTheOpcodeMap : Prop :=
  (∀ (w : Word) (i : Instr),
    (∃ j, decodeWord w = .ok j ∧ mnemonicOf j = mnemonicOf i) ↔ w &&& (rowOf i).2 = (rowOf i).1) ∧
  (∀ w : Word, (∀ i, w &&& (rowOf i).2 ≠ (rowOf i).1) → decodeWord w = .error (.unknownWord w))

/-- R98 (derived in the spec from R95 and R96): the words with no instruction are those of the list of unknown words. -/
def Obligations.UnknownWordsAreTheListedOnes : Prop :=
  ∀ w : Word, decodeWord w = .error (.unknownWord w) ↔ wordKnown w = false

/-- The decoder reads every field where R92 puts it: encoding what it gave restores the word but for the bits that R97 ignores
(decision D32, log 19), and a word that differs in those bits alone is the same instruction. -/
def Obligations.DecodeReadsEveryFieldBit : Prop :=
  ∀ (w : Word) (i : Instr), decodeWord w = .ok i →
    encode i = w &&& ~~~ignoredMask i ∧
    ∀ w' : Word, w' &&& ~~~ignoredMask i = w &&& ~~~ignoredMask i → decodeWord w' = .ok i

/-! ### The cycle -/

/-- R91: the fetched word is the byte at PC as the high byte and the byte at PC + 1 as the low byte; PC + 1 does not wrap, and a
byte above 0xFFF is out of range. -/
def Obligations.FetchIsBigEndianAndDoesNotWrap : Prop :=
  ∀ s : State,
    (s.pc.toNat ≤ 0xFFE → ∃ w, s.fetch = .ok w ∧
      w.toNat = (s.mem.read s.pc.toNat).toNat * 256 + (s.mem.read (s.pc.toNat + 1)).toNat) ∧
    (s.pc.toNat = 0xFFF → s.fetch = .error 0x1000) ∧
    (s.pc.toNat > 0xFFF → s.fetch = .error s.pc.toNat)

/-- R104: when the machine runs and the bytes at PC decode to i, the step is exec of i, then the timer tick, and the tick only
if exec raised nothing. No instruction is refused. The tick at exec's end is the model's layout (log 28). -/
def Obligations.StepRunsTheDecodedInstruction : Prop :=
  ∀ (strict : Bool) (s : State) (i : Instr), s.fault = none → s.pc.toNat ≤ 0xFFE →
    decodeWord (assemble (s.mem.read s.pc.toNat) (s.mem.read (s.pc.toNat + 1))) = .ok i →
    step s = stepWith strict s ∧
    (∀ t, exec i s = .next t → t.fault = none →
      stepWith strict s = .next { t with dt := tickByte t.dt, st := tickByte t.st }) ∧
    (∀ t, exec i s = .next t → t.fault ≠ none → stepWith strict s = .next t) ∧
    (∀ f, exec i s = .fault f → stepWith strict s = .fault f) ∧
    ∀ r, exec i s ≠ .refused r

/-- R99: an unknown word is a no-op with the default step, and the timers tick; under STRICT_UNKNOWN it raises UnknownOpcode and
the step makes no change. -/
def Obligations.UnknownWordStep : Prop :=
  ∀ (s : State) (w : Word), s.fault = none → s.fetch = .ok w → decodeWord w = .error (.unknownWord w) →
    stepWith false s = .next { s with pc := s.pc + 2#16, dt := tickByte s.dt, st := tickByte s.st } ∧
    stepWith true s = .next { s with fault := some (.unknownOpcode w s.pc) }

/-- R272 (a), R273 (decisions D12, D14, logs 1 and 18): a fetch that leaves memory records AddressOutOfRange with the first byte
out of range, and changes nothing else. -/
def Obligations.FetchOutOfRangeFaults : Prop :=
  ∀ (strict : Bool) (s : State), s.fault = none →
    (s.pc.toNat = 0xFFF →
      stepWith strict s = .next { s with fault := some (.addressOutOfRange .mem 0x1000 s.pc) }) ∧
    (s.pc.toNat > 0xFFF →
      stepWith strict s = .next { s with fault := some (.addressOutOfRange .mem s.pc.toNat s.pc) })

/-- R273 (decision D14, log 1): a state whose fault is set has no step. -/
def Obligations.HaltedMachineTakesNoStep : Prop :=
  ∀ (strict : Bool) (s : State) (r : FaultRecord), s.fault = some r →
    stepWith strict s = .fault (.halted r) ∧ step s = .fault (.halted r)

/-- R273 (decision D14, log 1): a step that raises is precise: it changes the fault and nothing else, the timers among the rest,
and the record names the address at PC. -/
def Obligations.FaultingStepIsPrecise : Prop :=
  ∀ (strict : Bool) (s t : State) (r : FaultRecord), stepWith strict s = .next t → t.fault = some r →
    t = { s with fault := some r } ∧ s.fault = none ∧ r.At s.pc ∧ faultCode r ≠ 1

/-- R280: at the end of every step that did not fault, after the instruction or the unknown word, each timer that is not 0 is
decremented by 1 and each timer that is 0 stays 0. -/
def Obligations.EveryCompletedStepTicksTheTimers : Prop :=
  ∀ (strict : Bool) (s t : State), stepWith strict s = .next t → t.fault = none →
    ∃ w u, s.fetch = .ok w ∧ execWord strict w s = .next u ∧
      (u.dt = 0#8 → t.dt = 0#8) ∧ (u.dt ≠ 0#8 → t.dt = u.dt - 1#8) ∧
      (u.st = 0#8 → t.st = 0#8) ∧ (u.st ≠ 0#8 → t.st = u.st - 1#8) ∧
      t = { u with dt := t.dt, st := t.st }

/-- R106 (derived in the spec): with SP legal, a state without a fault has a step, whose outcome is a next state or a raised fault.
That both are a next state of the model, a raised fault one with `fault` set, is the model's reading (decision D14, log 1). -/
def Obligations.RunningMachineAlwaysSteps : Prop :=
  ∀ (strict : Bool) (s : State), s.fault = none → s.sp.toNat ≤ 16 → ∃ t, stepWith strict s = .next t

/-! ### The invariant -/

/-- Every step, strict or not, keeps the invariant: memory canonical, the font intact (R63, D16), SP at most 16 (R28), PC at most
0x10FE (R27), every return address at most 0x1000 (R29), a recorded fault at PC (R273). -/
def Obligations.StepKeepsTheInvariant : Prop :=
  (∀ s t : State, s.Inv → step s = .next t → t.Inv) ∧
  (∀ (strict : Bool) (s t : State), s.Inv → stepWith strict s = .next t → t.Inv)

/-- The state after reset has the invariant. -/
def Obligations.ResetHasTheInvariant : Prop := State.reset.Inv

/-- The host operations that write the state keep the invariant (R284, R322). -/
def Obligations.HostOperationsKeepTheInvariant : Prop :=
  ∀ s t : State, s.Inv → (∀ keys, (setKeys s keys).Inv) ∧ ∀ image, load s image = .ok t → t.Inv

/-! ### Reset and load -/

/-- The values R39 takes from the source: PC, SP, the timers, the framebuffer, the latch. -/
def Obligations.ResetValuesOfTheSource : Prop :=
  State.reset.pc = 0x200#16 ∧ State.reset.sp = 0#8 ∧ State.reset.dt = 0#8 ∧ State.reset.st = 0#8 ∧
  (∀ px py, State.reset.fb.pixel px py = false) ∧ ∀ k, State.reset.keyDown k = false

/-- The values R39 takes from decisions D2 to D6 and D14, the model's choices (logs 1 and 5 to 9): V and I and the stack 0, memory
above the font 0, the 80 bytes of the conventional font as the table of R65 has them, no fault. -/
def Obligations.ResetValuesChosen : Prop :=
  (∀ x, State.reset.getV x = 0#8) ∧ State.reset.i = 0#16 ∧ (∀ k : Fin 16, State.reset.stack[k.val] = 0#16) ∧
  State.reset.fault = none ∧ (∀ a, 0x050 ≤ a → State.reset.mem.read a = 0#8) ∧
  State.reset.mem.readBytes 0x000 5 = [0xF0#8, 0x90#8, 0x90#8, 0x90#8, 0xF0#8] ∧
  State.reset.mem.readBytes 0x005 5 = [0x20#8, 0x60#8, 0x20#8, 0x20#8, 0x70#8] ∧
  State.reset.mem.readBytes 0x00A 5 = [0xF0#8, 0x10#8, 0xF0#8, 0x80#8, 0xF0#8] ∧
  State.reset.mem.readBytes 0x00F 5 = [0xF0#8, 0x10#8, 0xF0#8, 0x10#8, 0xF0#8] ∧
  State.reset.mem.readBytes 0x014 5 = [0x90#8, 0x90#8, 0xF0#8, 0x10#8, 0x10#8] ∧
  State.reset.mem.readBytes 0x019 5 = [0xF0#8, 0x80#8, 0xF0#8, 0x10#8, 0xF0#8] ∧
  State.reset.mem.readBytes 0x01E 5 = [0xF0#8, 0x80#8, 0xF0#8, 0x90#8, 0xF0#8] ∧
  State.reset.mem.readBytes 0x023 5 = [0xF0#8, 0x10#8, 0x20#8, 0x40#8, 0x40#8] ∧
  State.reset.mem.readBytes 0x028 5 = [0xF0#8, 0x90#8, 0xF0#8, 0x90#8, 0xF0#8] ∧
  State.reset.mem.readBytes 0x02D 5 = [0xF0#8, 0x90#8, 0xF0#8, 0x10#8, 0xF0#8] ∧
  State.reset.mem.readBytes 0x032 5 = [0xF0#8, 0x90#8, 0xF0#8, 0x90#8, 0x90#8] ∧
  State.reset.mem.readBytes 0x037 5 = [0xE0#8, 0x90#8, 0xE0#8, 0x90#8, 0xE0#8] ∧
  State.reset.mem.readBytes 0x03C 5 = [0xF0#8, 0x80#8, 0x80#8, 0x80#8, 0xF0#8] ∧
  State.reset.mem.readBytes 0x041 5 = [0xE0#8, 0x90#8, 0x90#8, 0x90#8, 0xE0#8] ∧
  State.reset.mem.readBytes 0x046 5 = [0xF0#8, 0x80#8, 0xF0#8, 0x80#8, 0xF0#8] ∧
  State.reset.mem.readBytes 0x04B 5 = [0xF0#8, 0x80#8, 0xF0#8, 0x80#8, 0x80#8]

/-- R322 (decision D29, log 25): a program that fits is copied to 0x200 and up and nothing else changes; a longer one is rejected
with its length. -/
def Obligations.LoadCopiesOrRejects : Prop :=
  ∀ (s : State) (image : List Byte),
    (image.length ≤ 3584 → ∃ t, load s image = .ok t ∧ t = { s with mem := t.mem } ∧
      (∀ (k : Nat) (h : k < image.length), t.mem.read (0x200 + k) = image[k]) ∧
      ∀ a, a < 0x200 ∨ 0x200 + image.length ≤ a → t.mem.read a = s.mem.read a) ∧
    (3584 < image.length → load s image = .error (.oversizeProgram image.length))

/-! ### Families 0x0 to 0x2 -/

/-- R130: 00E0, whatever its x field is (R97, decision D32, log 19), makes every pixel false and changes nothing else but PC. -/
def Obligations.ClsClearsTheFramebuffer : Prop :=
  (∀ w : Word, w &&& 0xF0FF#16 = 0x00E0#16 → decodeWord w = .ok .cls) ∧
  ∀ s : State, ∃ t, exec .cls s = .next t ∧ (∀ px py, t.fb.pixel px py = false) ∧
    t = { s with fb := t.fb, pc := s.pc + 2#16 }

/-- R131: 00EE, whatever its x field is (R97, decision D32, log 19), raises StackUnderflow when SP = 0, the state otherwise unchanged;
for SP 1..16 it decrements SP and sets PC to the entry at the new SP, which stays in the stack. -/
def Obligations.RetPopsTheStack : Prop :=
  (∀ w : Word, w &&& 0xF0FF#16 = 0x00EE#16 → decodeWord w = .ok .ret) ∧
  (∀ s : State, s.sp = 0#8 → exec .ret s = .next { s with fault := some (.stackUnderflow s.pc) }) ∧
  ∀ (s : State) (k : Fin 16), s.sp.toNat = k.val + 1 →
    exec .ret s = .next { s with sp := s.sp - 1#8, pc := s.stack[k.val] } ∧ (s.sp - 1#8).toNat = k.val

/-- R132: 1nnn sets PC to nnn, with no extra increment, and changes nothing else. -/
def Obligations.JumpSetsPc : Prop :=
  (∀ w : Word, w &&& 0xF000#16 = 0x1000#16 → decodeWord w = .ok (.jp (nnnOf w))) ∧
  ∀ (s : State) (nnn : Addr12), ∃ t, exec (.jp nnn) s = .next t ∧ t.pc.toNat = nnn.toNat ∧ t = { s with pc := t.pc }

/-- R133: 2nnn raises StackOverflow when SP = 16, the state otherwise unchanged; for SP 0..15 it stores old_PC + 2 in stack[SP]
alone, increments SP and sets PC to nnn. That the stored value is old_PC + 2 and not old_PC is the resolution of 90_conflicts.md C1
(log 22). -/
def Obligations.CallPushesTheReturnAddress : Prop :=
  (∀ w : Word, w &&& 0xF000#16 = 0x2000#16 → decodeWord w = .ok (.call (nnnOf w))) ∧
  (∀ (s : State) (nnn : Addr12), s.sp = 16#8 →
    exec (.call nnn) s = .next { s with fault := some (.stackOverflow s.pc) }) ∧
  ∀ (s : State) (nnn : Addr12) (k : Fin 16), s.sp.toNat = k.val →
    ∃ t, exec (.call nnn) s = .next t ∧ t.stack[k.val] = s.pc + 2#16 ∧
      (∀ j : Fin 16, j ≠ k → t.stack[j.val] = s.stack[j.val]) ∧ t.sp.toNat = k.val + 1 ∧ t.pc.toNat = nnn.toNat ∧
      t = { s with stack := t.stack, sp := t.sp, pc := t.pc }

/-- The model's choice for the SP values 17..255 that R33 calls reserved and unreachable (log 23): CALL and RET stop by name. -/
def Obligations.ReservedStackPointerStops : Prop :=
  ∀ s : State, 16 < s.sp.toNat →
    exec .ret s = .fault .reservedStackPointer ∧ ∀ nnn, exec (.call nnn) s = .fault .reservedStackPointer

/-- R131 and R133 together (§8 of the source, W6): a call followed immediately by a return restores PC to the call's address + 2
and SP to its value before. -/
def Obligations.CallThenReturn : Prop :=
  ∀ (s : State) (nnn : Addr12), s.sp.toNat < 16 →
    ∃ t u, exec (.call nnn) s = .next t ∧ exec .ret t = .next u ∧ u.pc = s.pc + 2#16 ∧ u.sp = s.sp ∧
      u = { s with stack := u.stack, pc := u.pc }

/-- R331 (decision D33, log 31): in a running state that is done, a step changes only DT and ST, which tick. -/
def Obligations.DoneStateOnlyTicks : Prop :=
  ∀ (strict : Bool) (s : State), s.Done → s.fault = none →
    stepWith strict s = .next { s with dt := tickByte s.dt, st := tickByte s.st }

/-! ### Families 0x3 to 0x7, and 9xyn -/

/-- R150 and R151: 3xnn skips exactly when V[x] = nn, 4xnn exactly when V[x] ≠ nn; PC advances by 4 or 2 and nothing else
changes. -/
def Obligations.ImmediateSkips : Prop :=
  (∀ w : Word, w &&& 0xF000#16 = 0x3000#16 → decodeWord w = .ok (.seImm (xOf w) (nnOf w))) ∧
  (∀ w : Word, w &&& 0xF000#16 = 0x4000#16 → decodeWord w = .ok (.sneImm (xOf w) (nnOf w))) ∧
  ∀ (s : State) (x : Reg) (nn : Byte),
    (s.getV x = nn → exec (.seImm x nn) s = .next { s with pc := s.pc + 4#16 } ∧
      exec (.sneImm x nn) s = .next { s with pc := s.pc + 2#16 }) ∧
    (s.getV x ≠ nn → exec (.seImm x nn) s = .next { s with pc := s.pc + 2#16 } ∧
      exec (.sneImm x nn) s = .next { s with pc := s.pc + 4#16 })

/-- R152 and R190: 5xyn skips exactly when V[x] = V[y], 9xyn exactly when V[x] ≠ V[y], whatever n is (R97, decision D32, log 19);
PC advances by 4 or 2 and nothing else changes. -/
def Obligations.RegisterSkips : Prop :=
  (∀ w : Word, w &&& 0xF000#16 = 0x5000#16 → decodeWord w = .ok (.seReg (xOf w) (yOf w))) ∧
  (∀ w : Word, w &&& 0xF000#16 = 0x9000#16 → decodeWord w = .ok (.sneReg (xOf w) (yOf w))) ∧
  ∀ (s : State) (x y : Reg),
    (s.getV x = s.getV y → exec (.seReg x y) s = .next { s with pc := s.pc + 4#16 } ∧
      exec (.sneReg x y) s = .next { s with pc := s.pc + 2#16 }) ∧
    (s.getV x ≠ s.getV y → exec (.seReg x y) s = .next { s with pc := s.pc + 2#16 } ∧
      exec (.sneReg x y) s = .next { s with pc := s.pc + 4#16 })

/-- R153 and R154: 6xnn puts nn into V[x]; 7xnn puts (V[x] + nn) mod 256 into V[x] and no flag: VF is unchanged unless x = F. -/
def Obligations.ImmediateLoadAndAdd : Prop :=
  (∀ w : Word, w &&& 0xF000#16 = 0x6000#16 → decodeWord w = .ok (.ldImm (xOf w) (nnOf w))) ∧
  (∀ w : Word, w &&& 0xF000#16 = 0x7000#16 → decodeWord w = .ok (.addImm (xOf w) (nnOf w))) ∧
  ∀ (s : State) (x : Reg) (nn : Byte),
    (∃ t, exec (.ldImm x nn) s = .next t ∧ s.WritesReg t x nn) ∧
    (∃ t, exec (.addImm x nn) s = .next t ∧
      s.WritesReg t x (BitVec.ofNat 8 (((s.getV x).toNat + nn.toNat) % 256)))

/-! ### Family 0x8 -/

/-- R171: 8xy0 copies V[y] into V[x]. -/
def Obligations.LoadRegister : Prop :=
  (∀ w : Word, w &&& 0xF00F#16 = 0x8000#16 → decodeWord w = .ok (.ldReg (xOf w) (yOf w))) ∧
  ∀ (s : State) (x y : Reg), ∃ t, exec (.ldReg x y) s = .next t ∧ s.WritesReg t x (s.getV y)

/-- R172 to R174: 8xy1, 8xy2, 8xy3 put the bitwise or, and, exclusive or of V[x] and V[y] into V[x]; VF is unchanged unless x = F
(decision D7, log 13). -/
def Obligations.LogicInstructions : Prop :=
  (∀ w : Word, w &&& 0xF00F#16 = 0x8001#16 → decodeWord w = .ok (.orReg (xOf w) (yOf w))) ∧
  (∀ w : Word, w &&& 0xF00F#16 = 0x8002#16 → decodeWord w = .ok (.andReg (xOf w) (yOf w))) ∧
  (∀ w : Word, w &&& 0xF00F#16 = 0x8003#16 → decodeWord w = .ok (.xorReg (xOf w) (yOf w))) ∧
  ∀ (s : State) (x y : Reg),
    (∃ t, exec (.orReg x y) s = .next t ∧ s.WritesReg t x (s.getV x ||| s.getV y)) ∧
    (∃ t, exec (.andReg x y) s = .next t ∧ s.WritesReg t x (s.getV x &&& s.getV y)) ∧
    (∃ t, exec (.xorReg x y) s = .next t ∧ s.WritesReg t x (s.getV x ^^^ s.getV y))

/-- R175: 8xy4 puts (a + b) mod 256 into V[x] and 1 into VF exactly when a + b > 255, else 0, for a, b the old V[x], V[y]; for
x = F the flag is left (R170, decision D8, log 14). -/
def Obligations.AddRegisterCarry : Prop :=
  (∀ w : Word, w &&& 0xF00F#16 = 0x8004#16 → decodeWord w = .ok (.addReg (xOf w) (yOf w))) ∧
  ∀ (s : State) (x y : Reg), ∃ t f, exec (.addReg x y) s = .next t ∧
    s.WritesRegFlag t x (BitVec.ofNat 8 (((s.getV x).toNat + (s.getV y).toNat) % 256)) f ∧
    ((s.getV x).toNat + (s.getV y).toNat > 255 → f = 1#8) ∧ ((s.getV x).toNat + (s.getV y).toNat ≤ 255 → f = 0#8)

/-- R176 and R178: with a, b the old V[x], V[y], 8xy5 puts (a - b) mod 256 into V[x] and 1 into VF exactly when a ≥ b (no borrow),
else 0; 8xy7 puts (b - a) mod 256 into V[x] and 1 into VF exactly when b ≥ a, else 0. For x = F the flag is left (R170, decision
D8, log 14). -/
def Obligations.SubtractionsNoBorrow : Prop :=
  (∀ w : Word, w &&& 0xF00F#16 = 0x8005#16 → decodeWord w = .ok (.subReg (xOf w) (yOf w))) ∧
  (∀ w : Word, w &&& 0xF00F#16 = 0x8007#16 → decodeWord w = .ok (.subnReg (xOf w) (yOf w))) ∧
  ∀ (s : State) (x y : Reg),
    (∃ t f, exec (.subReg x y) s = .next t ∧
      s.WritesRegFlag t x (BitVec.ofNat 8 (((s.getV x).toNat + 256 - (s.getV y).toNat) % 256)) f ∧
      ((s.getV x).toNat ≥ (s.getV y).toNat → f = 1#8) ∧ ((s.getV x).toNat < (s.getV y).toNat → f = 0#8)) ∧
    (∃ t f, exec (.subnReg x y) s = .next t ∧
      s.WritesRegFlag t x (BitVec.ofNat 8 (((s.getV y).toNat + 256 - (s.getV x).toNat) % 256)) f ∧
      ((s.getV y).toNat ≥ (s.getV x).toNat → f = 1#8) ∧ ((s.getV y).toNat < (s.getV x).toNat → f = 0#8))

/-- R177: 8xy6 halves V[x] and puts its old bit 0 into VF, for every y (y is not read, decision D32, log 19); for x = F the flag is
left (R170, decision D8, log 14). -/
def Obligations.ShiftRightRegister : Prop :=
  (∀ w : Word, w &&& 0xF00F#16 = 0x8006#16 → decodeWord w = .ok (.shr (xOf w) (yOf w))) ∧
  ∀ (s : State) (x y : Reg), ∃ t, exec (.shr x y) s = .next t ∧
    s.WritesRegFlag t x (BitVec.ofNat 8 ((s.getV x).toNat / 2)) (BitVec.ofNat 8 ((s.getV x).toNat % 2))

/-- R179: 8xyE doubles V[x] modulo 256 and puts its old bit 7 into VF, for every y (y is not read, decision D32, log 19); for x = F
the flag is left (R170, decision D8, log 14). -/
def Obligations.ShiftLeftRegister : Prop :=
  (∀ w : Word, w &&& 0xF00F#16 = 0x800E#16 → decodeWord w = .ok (.shl (xOf w) (yOf w))) ∧
  ∀ (s : State) (x y : Reg), ∃ t, exec (.shl x y) s = .next t ∧
    s.WritesRegFlag t x (BitVec.ofNat 8 ((s.getV x).toNat * 2 % 256)) (BitVec.ofNat 8 ((s.getV x).toNat / 128))

/-! ### Families 0xA to 0xC -/

/-- R191: Annn puts nnn into I; no register, flag or memory changes. -/
def Obligations.LoadIndex : Prop :=
  (∀ w : Word, w &&& 0xF000#16 = 0xA000#16 → decodeWord w = .ok (.ldI (nnnOf w))) ∧
  ∀ (s : State) (nnn : Addr12), ∃ t, exec (.ldI nnn) s = .next t ∧ t.i.toNat = nnn.toNat ∧
    t = { s with i := t.i, pc := s.pc + 2#16 }

/-- R192 (decision D12, log 18): Bnnn sets PC to nnn + V[0], not reduced modulo 0x1000, and raises nothing. -/
def Obligations.IndexedJump : Prop :=
  (∀ w : Word, w &&& 0xF000#16 = 0xB000#16 → decodeWord w = .ok (.jpV0 (nnnOf w))) ∧
  ∀ (s : State) (nnn : Addr12), ∃ t, exec (.jpV0 nnn) s = .next t ∧ t.pc.toNat = nnn.toNat + (s.getV 0).toNat ∧
    t = { s with pc := t.pc }

/-- R193 (decision D18, log 3): Cxnn puts the draw masked with nn into V[x], so no bit outside nn is set, and the next draw is
another one. The draw is a free value: the statement holds for every draw. -/
def Obligations.RandomIsMasked : Prop :=
  (∀ w : Word, w &&& 0xF000#16 = 0xC000#16 → decodeWord w = .ok (.rnd (xOf w) (nnOf w))) ∧
  ∀ (s : State) (x : Reg) (nn : Byte), ∃ t, exec (.rnd x nn) s = .next t ∧
    t.getV x = Config.randomByte s.draws &&& nn ∧ t.getV x &&& ~~~nn = 0#8 ∧
    (∀ z, z ≠ x → t.getV z = s.getV z) ∧ t = { s with v := t.v, draws := s.draws + 1, pc := s.pc + 2#16 }

/-! ### Family 0xD -/

/-- R210, R211, R212 (decision D9, log 15): when no sprite byte is out of range, Dxyn flips exactly the pixels the sprite has a
1-bit on, wrapped on both axes, and leaves VF 1 exactly if one of them was true; only the framebuffer, VF and PC change. -/
def Obligations.DrawXorsTheSprite : Prop :=
  (∀ w : Word, w &&& 0xF000#16 = 0xD000#16 → decodeWord w = .ok (.drw (xOf w) (yOf w) (nOf w))) ∧
  ∀ (s : State) (x y : Reg) (n : Nibble), n = 0#4 ∨ s.i.toNat + n.toNat ≤ 0x1000 →
    ∃ t, exec (.drw x y n) s = .next t ∧
      (∀ px py, s.SpriteOn x y n px py → t.fb.pixel px py = !s.fb.pixel px py) ∧
      (∀ px py, ¬ s.SpriteOn x y n px py → t.fb.pixel px py = s.fb.pixel px py) ∧
      ((∃ px py, s.SpriteOn x y n px py ∧ s.fb.pixel px py = true) → t.getV VF = 1#8) ∧
      ((¬ ∃ px py, s.SpriteOn x y n px py ∧ s.fb.pixel px py = true) → t.getV VF = 0#8) ∧
      (∀ z, z ≠ VF → t.getV z = s.getV z) ∧ t = { s with fb := t.fb, v := t.v, pc := s.pc + 2#16 }

/-- R210, R272 (b) (decision D13, log 11): Dxyn with a sprite byte above 0xFFF records the lowest such address and changes nothing
else. -/
def Obligations.DrawOutOfRangeFaults : Prop :=
  ∀ (s : State) (x y : Reg) (n : Nibble), n ≠ 0#4 → 0x1000 < s.i.toNat + n.toNat →
    exec (.drw x y n) s = .next { s with fault := some (.addressOutOfRange .mem (max s.i.toNat 0x1000) s.pc) }

/-- R213 (decision D10, log 16): a draw of height 0 reads nothing, whatever I is, sets VF to 0 and leaves every pixel. -/
def Obligations.DrawOfHeightZero : Prop :=
  ∀ (s : State) (x y : Reg), ∃ t, exec (.drw x y 0#4) s = .next t ∧ s.WritesReg t VF 0#8

/-- R214 (b) and R212: the same draw twice, with neither x nor y naming VF, restores the framebuffer. The second draw leaves VF 1
exactly if the sprite has a 1-bit on a pixel that was false before the first: R212's rule. So where the first draw hits no true
pixel, the second leaves VF 1 exactly if the sprite has a 1-bit in its n rows, as R214 (b) infers; where every 1-bit lands on a true
pixel that inference fails (log 33). -/
def Obligations.DrawTwiceRestores : Prop :=
  ∀ (s : State) (x y : Reg) (n : Nibble), x ≠ VF → y ≠ VF → (n = 0#4 ∨ s.i.toNat + n.toNat ≤ 0x1000) →
    ∃ t u, exec (.drw x y n) s = .next t ∧ exec (.drw x y n) t = .next u ∧ u.fb = s.fb ∧
      ((∃ px py, s.SpriteOn x y n px py ∧ s.fb.pixel px py = false) → u.getV VF = 1#8) ∧
      ((¬ ∃ px py, s.SpriteOn x y n px py ∧ s.fb.pixel px py = false) → u.getV VF = 0#8) ∧
      (t.getV VF = 0#8 → (u.getV VF = 1#8 ↔
        ∃ r c : Nat, r < n.toNat ∧ c < 8 ∧ (s.mem.read (s.i.toNat + r)).getLsbD (7 - c) = true))

/-! ### Families 0xE and 0xF -/

/-- R230 and R231: with V[x] a key number, Ex9E skips exactly when that key is down and ExA1 exactly when it is not; nothing but PC
changes. With V[x] > 15 each records AddressOutOfRange in the key space (decision D17, log 12). -/
def Obligations.KeySkips : Prop :=
  (∀ w : Word, w &&& 0xF0FF#16 = 0xE09E#16 → decodeWord w = .ok (.skp (xOf w))) ∧
  (∀ w : Word, w &&& 0xF0FF#16 = 0xE0A1#16 → decodeWord w = .ok (.sknp (xOf w))) ∧
  (∀ (s : State) (x : Reg) (k : Fin 16), (s.getV x).toNat = k.val →
    (s.keyDown k = true → exec (.skp x) s = .next { s with pc := s.pc + 4#16 } ∧
      exec (.sknp x) s = .next { s with pc := s.pc + 2#16 }) ∧
    (s.keyDown k = false → exec (.skp x) s = .next { s with pc := s.pc + 2#16 } ∧
      exec (.sknp x) s = .next { s with pc := s.pc + 4#16 })) ∧
  ∀ (s : State) (x : Reg), 15 < (s.getV x).toNat →
    exec (.skp x) s = .next { s with fault := some (.addressOutOfRange .key (s.getV x).toNat s.pc) } ∧
    exec (.sknp x) s = .next { s with fault := some (.addressOutOfRange .key (s.getV x).toNat s.pc) }

/-- R233: Fx0A with no key down changes nothing, PC among the rest, and the timers still tick at the end of the waiting step; with
a key down it puts the lowest such key into V[x] and advances. -/
def Obligations.KeyWait : Prop :=
  (∀ w : Word, w &&& 0xF0FF#16 = 0xF00A#16 → decodeWord w = .ok (.ldVxK (xOf w))) ∧
  (∀ (s : State) (x : Reg), (∀ k, s.keyDown k = false) → exec (.ldVxK x) s = .next s) ∧
  (∀ (strict : Bool) (s : State) (w : Word) (x : Reg), (∀ k, s.keyDown k = false) → s.fault = none → s.fetch = .ok w →
    decodeWord w = .ok (.ldVxK x) → stepWith strict s = .next { s with dt := tickByte s.dt, st := tickByte s.st }) ∧
  ∀ (s : State) (x : Reg) (k : Fin 16), s.keyDown k = true → (∀ j, j < k → s.keyDown j = false) →
    ∃ t, exec (.ldVxK x) s = .next t ∧ s.WritesReg t x (BitVec.ofNat 8 k.val)

/-- R232, R234, R235: Fx07 puts DT, as it was before this step's tick, into V[x]; Fx15 puts V[x] into DT, Fx18 into ST, before the
tick, and only that timer and PC change. -/
def Obligations.TimerInstructions : Prop :=
  (∀ w : Word, w &&& 0xF0FF#16 = 0xF007#16 → decodeWord w = .ok (.ldVxDt (xOf w))) ∧
  (∀ w : Word, w &&& 0xF0FF#16 = 0xF015#16 → decodeWord w = .ok (.ldDtVx (xOf w))) ∧
  (∀ w : Word, w &&& 0xF0FF#16 = 0xF018#16 → decodeWord w = .ok (.ldStVx (xOf w))) ∧
  ∀ (s : State) (x : Reg),
    (∃ t, exec (.ldVxDt x) s = .next t ∧ s.WritesReg t x s.dt) ∧
    exec (.ldDtVx x) s = .next { s with dt := s.getV x, pc := s.pc + 2#16 } ∧
    exec (.ldStVx x) s = .next { s with st := s.getV x, pc := s.pc + 2#16 }

/-- R326 (derived in the spec): the step of Fx15 with V[x] = v leaves DT = max(v - 1, 0), and the step of Fx18 leaves ST so. -/
def Obligations.TimerWriteTicksInTheSameStep : Prop :=
  ∀ (strict : Bool) (s : State) (w : Word) (x : Reg), s.fault = none → s.fetch = .ok w →
    (decodeWord w = .ok (.ldDtVx x) → ∃ t, stepWith strict s = .next t ∧ t.dt.toNat = (s.getV x).toNat - 1) ∧
    (decodeWord w = .ok (.ldStVx x) → ∃ t, stepWith strict s = .next t ∧ t.st.toNat = (s.getV x).toNat - 1 ∧
      (soundActive t = true ↔ (s.getV x).toNat ≥ 2))

/-- R236 (decisions D8 and D11, logs 14 and 17): Fx1E adds V[x] to I modulo 65536 and leaves VF 1 exactly when the sum exceeds
0xFFFF; I may exceed 0xFFF and nothing is raised. -/
def Obligations.AddToIndex : Prop :=
  (∀ w : Word, w &&& 0xF0FF#16 = 0xF01E#16 → decodeWord w = .ok (.addI (xOf w))) ∧
  ∀ (s : State) (x : Reg), ∃ t, exec (.addI x) s = .next t ∧
    t.i.toNat = (s.i.toNat + (s.getV x).toNat) % 65536 ∧
    (s.i.toNat + (s.getV x).toNat > 0xFFFF → t.getV VF = 1#8) ∧
    (s.i.toNat + (s.getV x).toNat ≤ 0xFFFF → t.getV VF = 0#8) ∧
    (∀ z, z ≠ VF → t.getV z = s.getV z) ∧ t = { s with i := t.i, v := t.v, pc := s.pc + 2#16 }

/-- R237: Fx29 puts V[x] * 5, exactly, into I, for every value of V[x]; nothing is raised. -/
def Obligations.FontAddress : Prop :=
  (∀ w : Word, w &&& 0xF0FF#16 = 0xF029#16 → decodeWord w = .ok (.ldF (xOf w))) ∧
  ∀ (s : State) (x : Reg), ∃ t, exec (.ldF x) s = .next t ∧ t.i.toNat = (s.getV x).toNat * 5 ∧
    t = { s with i := t.i, pc := s.pc + 2#16 }

/-- R238: with I in 0x050..0xFFD, Fx33 stores the hundreds, tens and ones digits of V[x] at I, I + 1 and I + 2 and no other byte; I
is unchanged (decision D7, log 13). -/
def Obligations.BcdStoresThreeDigits : Prop :=
  (∀ w : Word, w &&& 0xF0FF#16 = 0xF033#16 → decodeWord w = .ok (.ldB (xOf w))) ∧
  ∀ (s : State) (x : Reg), 0x050 ≤ s.i.toNat → s.i.toNat ≤ 0xFFD →
    ∃ t, exec (.ldB x) s = .next t ∧
      (t.mem.read s.i.toNat).toNat = (s.getV x).toNat / 100 ∧
      (t.mem.read (s.i.toNat + 1)).toNat = (s.getV x).toNat / 10 % 10 ∧
      (t.mem.read (s.i.toNat + 2)).toNat = (s.getV x).toNat % 10 ∧
      (∀ a, a < s.i.toNat ∨ s.i.toNat + 3 ≤ a → t.mem.read a = s.mem.read a) ∧
      t = { s with mem := t.mem, pc := s.pc + 2#16 }

/-- R239: with I at least 0x050 and I + x at most 0xFFF, Fx55 stores V[k] at I + k for k = 0..x and no other byte; I is unchanged
(decision D7, log 13). -/
def Obligations.StoreRegisters : Prop :=
  (∀ w : Word, w &&& 0xF0FF#16 = 0xF055#16 → decodeWord w = .ok (.ldMemVx (xOf w))) ∧
  ∀ (s : State) (x : Reg), 0x050 ≤ s.i.toNat → s.i.toNat + x.val ≤ 0xFFF →
    ∃ t, exec (.ldMemVx x) s = .next t ∧
      (∀ k : Reg, k ≤ x → t.mem.read (s.i.toNat + k.val) = s.getV k) ∧
      (∀ a, a < s.i.toNat ∨ s.i.toNat + x.val < a → t.mem.read a = s.mem.read a) ∧
      t = { s with mem := t.mem, pc := s.pc + 2#16 }

/-- R272 (d), R63, R69 (decisions D13 and D16, logs 10 and 11): Fx33 and Fx55 that would touch the font region or an address above
0xFFF record the lowest such address and change nothing else. -/
def Obligations.StoresOutOfRangeFault : Prop :=
  ∀ (s : State) (x : Reg),
    (s.i.toNat ≤ 0x04F →
      exec (.ldB x) s = .next { s with fault := some (.addressOutOfRange .mem s.i.toNat s.pc) } ∧
      exec (.ldMemVx x) s = .next { s with fault := some (.addressOutOfRange .mem s.i.toNat s.pc) }) ∧
    (0xFFF < s.i.toNat + 2 →
      exec (.ldB x) s = .next { s with fault := some (.addressOutOfRange .mem (max s.i.toNat 0x1000) s.pc) }) ∧
    (0x04F < s.i.toNat → 0xFFF < s.i.toNat + x.val →
      exec (.ldMemVx x) s = .next { s with fault := some (.addressOutOfRange .mem (max s.i.toNat 0x1000) s.pc) })

/-- R240: with I + x at most 0xFFF, Fx65 puts the byte at I + k into V[k] for k = 0..x and leaves the other registers; otherwise it
records the lowest address out of range and changes nothing else (decision D13, log 11). I is unchanged (decision D7, log 13). -/
def Obligations.LoadRegisters : Prop :=
  (∀ w : Word, w &&& 0xF0FF#16 = 0xF065#16 → decodeWord w = .ok (.ldVxMem (xOf w))) ∧
  (∀ (s : State) (x : Reg), s.i.toNat + x.val ≤ 0xFFF →
    ∃ t, exec (.ldVxMem x) s = .next t ∧
      (∀ k : Reg, k ≤ x → t.getV k = s.mem.read (s.i.toNat + k.val)) ∧ (∀ k : Reg, x < k → t.getV k = s.getV k) ∧
      t = { s with v := t.v, pc := s.pc + 2#16 }) ∧
  ∀ (s : State) (x : Reg), 0xFFF < s.i.toNat + x.val →
    exec (.ldVxMem x) s = .next { s with fault := some (.addressOutOfRange .mem (max s.i.toNat 0x1000) s.pc) }

/-- R74 (decision D23, log 32): after Fx55 or Fx33 the next fetch, at PC + 2, takes each of its two bytes from the store where the
store covers it (V[k] at I + k, or the k-th decimal digit of V[x], hundreds first), and from memory as it was where it does not. -/
def Obligations.NextFetchSeesTheStore : Prop :=
  (∀ (s : State) (x : Reg), s.pc.toNat ≤ 0xFFC → 0x050 ≤ s.i.toNat → s.i.toNat + x.val ≤ 0xFFF →
    ∃ t hi lo, exec (.ldMemVx x) s = .next t ∧ t.pc = s.pc + 2#16 ∧ t.fetch = .ok (assemble hi lo) ∧
      (∀ k : Reg, k ≤ x → s.i.toNat + k.val = s.pc.toNat + 2 → hi = s.getV k) ∧
      (∀ k : Reg, k ≤ x → s.i.toNat + k.val = s.pc.toNat + 3 → lo = s.getV k) ∧
      (s.pc.toNat + 2 < s.i.toNat ∨ s.i.toNat + x.val < s.pc.toNat + 2 → hi = s.mem.read (s.pc.toNat + 2)) ∧
      (s.pc.toNat + 3 < s.i.toNat ∨ s.i.toNat + x.val < s.pc.toNat + 3 → lo = s.mem.read (s.pc.toNat + 3))) ∧
  ∀ (s : State) (x : Reg), s.pc.toNat ≤ 0xFFC → 0x050 ≤ s.i.toNat → s.i.toNat ≤ 0xFFD →
    ∃ t hi lo, exec (.ldB x) s = .next t ∧ t.pc = s.pc + 2#16 ∧ t.fetch = .ok (assemble hi lo) ∧
      (∀ k : Fin 3, s.i.toNat + k.val = s.pc.toNat + 2 → hi.toNat = (s.getV x).toNat / 10 ^ (2 - k.val) % 10) ∧
      (∀ k : Fin 3, s.i.toNat + k.val = s.pc.toNat + 3 → lo.toNat = (s.getV x).toNat / 10 ^ (2 - k.val) % 10) ∧
      (s.pc.toNat + 2 < s.i.toNat ∨ s.i.toNat + 2 < s.pc.toNat + 2 → hi = s.mem.read (s.pc.toNat + 2)) ∧
      (s.pc.toNat + 3 < s.i.toNat ∨ s.i.toNat + 2 < s.pc.toNat + 3 → lo = s.mem.read (s.pc.toNat + 3))

/-! ### What no instruction does -/

/-- R28 and R29: only 2nnn and 00EE write SP, and only 2nnn writes the stack. -/
def Obligations.OnlyCallAndRetMoveTheStack : Prop :=
  ∀ (i : Instr) (s t : State), exec i s = .next t →
    ((∀ nnn, i ≠ .call nnn) → t.stack = s.stack) ∧ ((∀ nnn, i ≠ .call nnn) → i ≠ .ret → t.sp = s.sp)

/-- R34 and R35, R24, R31, R32: only 00E0 and Dxyn write the framebuffer, no instruction writes the latch, only Annn, Fx1E and Fx29
write I, only Fx15 writes DT, only Fx18 writes ST (before the tick). The last clause is the model's choice, not a rule of the spec:
only Cxnn advances `draws`, the model's own counter of random draws (log 3). -/
def Obligations.WritersOfTheSpecialState : Prop :=
  ∀ (i : Instr) (s t : State), exec i s = .next t →
    (i ≠ .cls → (∀ x y n, i ≠ .drw x y n) → t.fb = s.fb) ∧ t.key = s.key ∧
    ((∀ nnn, i ≠ .ldI nnn) → (∀ x, i ≠ .addI x) → (∀ x, i ≠ .ldF x) → t.i = s.i) ∧
    ((∀ x, i ≠ .ldDtVx x) → t.dt = s.dt) ∧ ((∀ x, i ≠ .ldStVx x) → t.st = s.st) ∧
    ((∀ x nn, i ≠ .rnd x nn) → t.draws = s.draws)

/-- R68 and R23: only Fx33 and Fx55 write memory, and no instruction writes the font region (R63, decision D16, log 10). -/
def Obligations.WritersOfMemory : Prop :=
  ∀ (i : Instr) (s t : State), exec i s = .next t →
    ((∀ x, i ≠ .ldB x) → (∀ x, i ≠ .ldMemVx x) → ∀ a, t.mem.read a = s.mem.read a) ∧
    ∀ a, a ≤ 0x04F → t.mem.read a = s.mem.read a

/-- R22 and R21: an instruction changes a V register only if it names it as its destination, or, for VF, if it is one of the seven
that write VF as a flag. -/
def Obligations.WritersOfTheRegisters : Prop :=
  ∀ (i : Instr) (s t : State) (z : Reg), exec i s = .next t → t.getV z ≠ s.getV z →
    namesAsDestination z i = true ∨ (z = VF ∧ writesVfAsFlag i = true)

/-- R271 (derived in the spec): only 00EE, 2nnn, Dxyn, Fx33, Fx55, Fx65, Ex9E and ExA1 raise a fault of their own, and raising
changes nothing but the fault; every other instruction leaves the fault alone. -/
def Obligations.SourcesOfFaults : Prop :=
  ∀ (i : Instr) (s t : State), exec i s = .next t →
    (t.fault = s.fault ∨ (canRaise i = true ∧ ∃ r, t = { s with fault := some r } ∧ r.At s.pc))

/-- R239 and R240 together: registers stored by Fx55 and read back by Fx65 from the same I are unchanged. -/
def Obligations.StoreThenLoadRestores : Prop :=
  ∀ (s : State) (x : Reg), 0x050 ≤ s.i.toNat → s.i.toNat + x.val ≤ 0xFFF →
    ∃ t u, exec (.ldMemVx x) s = .next t ∧ exec (.ldVxMem x) t = .next u ∧ u.v = s.v ∧ u.mem = t.mem
end

