-- ==== Sys2Proof/Laws/Word.lean ====
section
/-! SUPPORT. Words and their fields as numbers, the fields of a packed word, and a word as its fields (30_encoding.md rules R91
to R94). Every field fact is linear arithmetic once both sides are numbers. -/

namespace Sys2Proof

/-- Concatenation as a number: the left field times the weight of the right one. -/
theorem toNat_append_eq {m n : Nat} (a : BitVec m) (b : BitVec n) : (a ++ b).toNat = a.toNat * 2 ^ n + b.toNat := by
  rw [BitVec.toNat_append, Nat.shiftLeft_eq, Nat.mul_comm, Nat.two_pow_add_eq_or_of_lt b.isLt]

/-! ### Fields and packed words as numbers -/

theorem toNat_opOf (w : Word) : (opOf w).toNat = w.toNat / 4096 % 16 := by
  simp [opOf, Nat.shiftRight_eq_div_pow]

theorem val_xOf (w : Word) : (xOf w).val = w.toNat / 256 % 16 := by
  simp [xOf, Nat.shiftRight_eq_div_pow]

theorem val_yOf (w : Word) : (yOf w).val = w.toNat / 16 % 16 := by
  simp [yOf, Nat.shiftRight_eq_div_pow]

theorem toNat_nOf (w : Word) : (nOf w).toNat = w.toNat % 16 := by simp [nOf]

theorem toNat_nnOf (w : Word) : (nnOf w).toNat = w.toNat % 256 := by simp [nnOf]

theorem toNat_nnnOf (w : Word) : (nnnOf w).toNat = w.toNat % 4096 := by simp [nnnOf]

theorem toNat_hiByte (w : Word) : (hiByte w).toNat = w.toNat / 256 % 256 := by
  simp [hiByte, Nat.shiftRight_eq_div_pow]

theorem toNat_loByte (w : Word) : (loByte w).toNat = w.toNat % 256 := by simp [loByte]

theorem toNat_regBits (x : Reg) : (regBits x).toNat = x.val := rfl

theorem regBits_toFin (x : Reg) : (regBits x).toFin = x := rfl

/-- Word assembly as a number: `(high << 8) | low` (rule R91). -/
theorem toNat_assemble (hi lo : Byte) : (assemble hi lo).toNat = hi.toNat * 256 + lo.toNat := toNat_append_eq hi lo

theorem toNat_packA (op : Nibble) (nnn : Addr12) : (packA op nnn).toNat = op.toNat * 4096 + nnn.toNat :=
  toNat_append_eq op nnn

theorem toNat_packXK (op : Nibble) (x : Reg) (nn : Byte) :
    (packXK op x nn).toNat = (op.toNat * 16 + x.val) * 256 + nn.toNat := by
  rw [← toNat_regBits x]
  exact (toNat_append_eq (op ++ regBits x) nn).trans (congrArg (· * 256 + nn.toNat) (toNat_append_eq op (regBits x)))

theorem toNat_packXYN (op : Nibble) (x y : Reg) (n : Nibble) :
    (packXYN op x y n).toNat = ((op.toNat * 16 + x.val) * 16 + y.val) * 16 + n.toNat := by
  rw [← toNat_regBits x, ← toNat_regBits y]
  have h := toNat_append_eq (op ++ regBits x ++ regBits y) n
  rw [toNat_append_eq (op ++ regBits x) (regBits y), toNat_append_eq op (regBits x)] at h
  exact h

/-! ### Fields of packed words -/

@[simp] theorem opOf_packA (op : Nibble) (nnn : Addr12) : opOf (packA op nnn) = op := by
  have := nnn.isLt; apply BitVec.eq_of_toNat_eq; rw [toNat_opOf, toNat_packA]; omega

@[simp] theorem nnnOf_packA (op : Nibble) (nnn : Addr12) : nnnOf (packA op nnn) = nnn := by
  have := nnn.isLt; apply BitVec.eq_of_toNat_eq; rw [toNat_nnnOf, toNat_packA]; omega

@[simp] theorem opOf_packXK (op : Nibble) (x : Reg) (nn : Byte) : opOf (packXK op x nn) = op := by
  have := nn.isLt; apply BitVec.eq_of_toNat_eq; rw [toNat_opOf, toNat_packXK]; omega

@[simp] theorem xOf_packXK (op : Nibble) (x : Reg) (nn : Byte) : xOf (packXK op x nn) = x := by
  have := nn.isLt; apply Fin.ext; rw [val_xOf, toNat_packXK]; omega

@[simp] theorem nnOf_packXK (op : Nibble) (x : Reg) (nn : Byte) : nnOf (packXK op x nn) = nn := by
  have := nn.isLt; apply BitVec.eq_of_toNat_eq; rw [toNat_nnOf, toNat_packXK]; omega

@[simp] theorem opOf_packXYN (op : Nibble) (x y : Reg) (n : Nibble) : opOf (packXYN op x y n) = op := by
  have := n.isLt; apply BitVec.eq_of_toNat_eq; rw [toNat_opOf, toNat_packXYN]; omega

@[simp] theorem xOf_packXYN (op : Nibble) (x y : Reg) (n : Nibble) : xOf (packXYN op x y n) = x := by
  have := n.isLt; apply Fin.ext; rw [val_xOf, toNat_packXYN]; omega

@[simp] theorem yOf_packXYN (op : Nibble) (x y : Reg) (n : Nibble) : yOf (packXYN op x y n) = y := by
  have := n.isLt; apply Fin.ext; rw [val_yOf, toNat_packXYN]; omega

@[simp] theorem nOf_packXYN (op : Nibble) (x y : Reg) (n : Nibble) : nOf (packXYN op x y n) = n := by
  have := n.isLt; apply BitVec.eq_of_toNat_eq; rw [toNat_nOf, toNat_packXYN]; omega

/-! ### A word is its fields -/

theorem packA_fields (w : Word) : packA (opOf w) (nnnOf w) = w := by
  have := w.isLt
  apply BitVec.eq_of_toNat_eq; rw [toNat_packA, toNat_opOf, toNat_nnnOf]; omega

theorem packXK_fields (w : Word) : packXK (opOf w) (xOf w) (nnOf w) = w := by
  have := w.isLt
  apply BitVec.eq_of_toNat_eq; rw [toNat_packXK, toNat_opOf, val_xOf, toNat_nnOf]; omega

theorem packXYN_fields (w : Word) : packXYN (opOf w) (xOf w) (yOf w) (nOf w) = w := by
  have := w.isLt
  apply BitVec.eq_of_toNat_eq; rw [toNat_packXYN, toNat_opOf, val_xOf, val_yOf, toNat_nOf]; omega

/-- The bytes of a word, put together again (rule R91). -/
@[simp] theorem assemble_hi_lo (w : Word) : assemble (hiByte w) (loByte w) = w := by
  have := w.isLt
  apply BitVec.eq_of_toNat_eq; rw [toNat_assemble, toNat_hiByte, toNat_loByte]; omega

@[simp] theorem hiByte_assemble (hi lo : Byte) : hiByte (assemble hi lo) = hi := by
  have := lo.isLt
  apply BitVec.eq_of_toNat_eq; rw [toNat_hiByte, toNat_assemble]; omega

@[simp] theorem loByte_assemble (hi lo : Byte) : loByte (assemble hi lo) = lo := by
  have := lo.isLt
  apply BitVec.eq_of_toNat_eq; rw [toNat_loByte, toNat_assemble]; omega

/-! ### The masks of the opcode map as fields (rule R96) -/

/-- The conjunction of two words, nibble by nibble. -/
theorem packXYN_and (op op' : Nibble) (x x' y y' : Reg) (n n' : Nibble) :
    packXYN op x y n &&& packXYN op' x' y' n' =
      packXYN (op &&& op') (regBits x &&& regBits x').toFin (regBits y &&& regBits y').toFin (n &&& n') := by
  unfold packXYN
  exact (BitVec.and_append).trans (congrArg (· ++ (n &&& n'))
    ((BitVec.and_append).trans (congrArg (· ++ (regBits y &&& regBits y')) BitVec.and_append)))

/-- A word masked nibble by nibble, each nibble of the mask being all ones or all zeros. -/
theorem and_mask (w : Word) (a b c d : Bool) :
    w &&& packXYN (if a then 0xF#4 else 0#4) (if b then 15 else 0) (if c then 15 else 0) (if d then 0xF#4 else 0#4) =
      packXYN (if a then opOf w else 0#4) (if b then xOf w else 0) (if c then yOf w else 0) (if d then nOf w else 0#4) := by
  have ones : ∀ z : Nibble, z &&& 15#4 = z := by decide
  have r15 : regBits 15 = 15#4 := rfl
  have r0 : regBits 0 = 0#4 := rfl
  conv_lhs => rw [← packXYN_fields w]
  rw [packXYN_and]
  cases a <;> cases b <;> cases c <;> cases d <;> simp [ones, r15, r0, regBits_toFin]

/-- Mask 0xF000 keeps op. -/
theorem and_F000 (w : Word) : w &&& 0xF000#16 = packXYN (opOf w) 0 0 0#4 := and_mask w true false false false

/-- Mask 0xF00F keeps op and n. -/
theorem and_F00F (w : Word) : w &&& 0xF00F#16 = packXYN (opOf w) 0 0 (nOf w) := and_mask w true false false true

/-- Mask 0xF0FF keeps op, y and n, that is, op and nn. -/
theorem and_F0FF (w : Word) : w &&& 0xF0FF#16 = packXYN (opOf w) 0 (yOf w) (nOf w) := and_mask w true false true true

/-- Two packed words are equal exactly if their fields are. -/
theorem packXYN_inj {op op' : Nibble} {x x' y y' : Reg} {n n' : Nibble} :
    packXYN op x y n = packXYN op' x' y' n' ↔ op = op' ∧ x = x' ∧ y = y' ∧ n = n' := by
  constructor
  · intro h
    have ho := congrArg opOf h
    have hx := congrArg xOf h
    have hy := congrArg yOf h
    have hn := congrArg nOf h
    simp only [opOf_packXYN, xOf_packXYN, yOf_packXYN, nOf_packXYN] at ho hx hy hn
    exact ⟨ho, hx, hy, hn⟩
  · rintro ⟨rfl, rfl, rfl, rfl⟩; rfl

/-- nn is y ++ n (rule R92), as numbers. -/
theorem nnOf_eq_iff (w : Word) (b : Byte) :
    nnOf w = b ↔ (yOf w).val = b.toNat / 16 ∧ (nOf w).toNat = b.toNat % 16 := by
  have := b.isLt
  rw [← BitVec.toNat_inj, toNat_nnOf, val_yOf, toNat_nOf]
  omega

end Sys2Proof
end

