-- ==== Sys2Proof/Laws/Decode.lean ====
section
/-! SUPPORT. The decoder, row by row of 30_encoding.md rule R96: a word with a row's match under its mask is that row's
instruction, its operands the word's fields. -/

namespace Sys2Proof

/-- A word whose op is fixed by mask 0xF000. -/
theorem op_of_F000 (op : Nibble) {w : Word} (h : w &&& 0xF000#16 = packXYN op 0 0 0#4) : opOf w = op := by
  rw [and_F000, packXYN_inj] at h; exact h.1

/-- A word whose op and n are fixed by mask 0xF00F. -/
theorem op_n_of_F00F (op n : Nibble) {w : Word} (h : w &&& 0xF00F#16 = packXYN op 0 0 n) : opOf w = op ∧ nOf w = n := by
  rw [and_F00F, packXYN_inj] at h; exact ⟨h.1, h.2.2.2⟩

/-- A word whose op and nn are fixed by mask 0xF0FF. -/
theorem op_nn_of_F0FF (op : Nibble) (nn : Byte) {w : Word} (h : w &&& 0xF0FF#16 = packXK op 0 nn) :
    opOf w = op ∧ nnOf w = nn := by
  have e : packXK op 0 nn = packXYN op 0 (yOf (packXK op 0 nn)) (nOf (packXK op 0 nn)) := by
    conv_lhs => rw [← packXYN_fields (packXK op 0 nn)]
    simp
  rw [and_F0FF, e, packXYN_inj] at h
  refine ⟨h.1, (nnOf_eq_iff w nn).2 ?_⟩
  rw [h.2.2.1, h.2.2.2]
  exact (nnOf_eq_iff _ nn).1 (nnOf_packXK op 0 nn)

/-! ### One lemma per row -/

theorem decodeWord_cls {w : Word} (h : w &&& 0xF0FF#16 = 0x00E0#16) :
    decodeWord w = .ok (.cls) := by
  have e := op_nn_of_F0FF 0x0#4 0xE0#8 h
  simp [decodeWord, decodeFamily0, e.1, e.2]

theorem decodeWord_ret {w : Word} (h : w &&& 0xF0FF#16 = 0x00EE#16) :
    decodeWord w = .ok (.ret) := by
  have e := op_nn_of_F0FF 0x0#4 0xEE#8 h
  simp [decodeWord, decodeFamily0, e.1, e.2]

theorem decodeWord_jp {w : Word} (h : w &&& 0xF000#16 = 0x1000#16) :
    decodeWord w = .ok (.jp (nnnOf w)) := by
  have e := op_of_F000 0x1#4 h
  simp [decodeWord, e]

theorem decodeWord_call {w : Word} (h : w &&& 0xF000#16 = 0x2000#16) :
    decodeWord w = .ok (.call (nnnOf w)) := by
  have e := op_of_F000 0x2#4 h
  simp [decodeWord, e]

theorem decodeWord_seImm {w : Word} (h : w &&& 0xF000#16 = 0x3000#16) :
    decodeWord w = .ok (.seImm (xOf w) (nnOf w)) := by
  have e := op_of_F000 0x3#4 h
  simp [decodeWord, e]

theorem decodeWord_sneImm {w : Word} (h : w &&& 0xF000#16 = 0x4000#16) :
    decodeWord w = .ok (.sneImm (xOf w) (nnOf w)) := by
  have e := op_of_F000 0x4#4 h
  simp [decodeWord, e]

theorem decodeWord_seReg {w : Word} (h : w &&& 0xF000#16 = 0x5000#16) :
    decodeWord w = .ok (.seReg (xOf w) (yOf w)) := by
  have e := op_of_F000 0x5#4 h
  simp [decodeWord, e]

theorem decodeWord_ldImm {w : Word} (h : w &&& 0xF000#16 = 0x6000#16) :
    decodeWord w = .ok (.ldImm (xOf w) (nnOf w)) := by
  have e := op_of_F000 0x6#4 h
  simp [decodeWord, e]

theorem decodeWord_addImm {w : Word} (h : w &&& 0xF000#16 = 0x7000#16) :
    decodeWord w = .ok (.addImm (xOf w) (nnOf w)) := by
  have e := op_of_F000 0x7#4 h
  simp [decodeWord, e]

theorem decodeWord_ldReg {w : Word} (h : w &&& 0xF00F#16 = 0x8000#16) :
    decodeWord w = .ok (.ldReg (xOf w) (yOf w)) := by
  have e := op_n_of_F00F 0x8#4 0x0#4 h
  simp [decodeWord, decodeFamily8, e.1, e.2]

theorem decodeWord_orReg {w : Word} (h : w &&& 0xF00F#16 = 0x8001#16) :
    decodeWord w = .ok (.orReg (xOf w) (yOf w)) := by
  have e := op_n_of_F00F 0x8#4 0x1#4 h
  simp [decodeWord, decodeFamily8, e.1, e.2]

theorem decodeWord_andReg {w : Word} (h : w &&& 0xF00F#16 = 0x8002#16) :
    decodeWord w = .ok (.andReg (xOf w) (yOf w)) := by
  have e := op_n_of_F00F 0x8#4 0x2#4 h
  simp [decodeWord, decodeFamily8, e.1, e.2]

theorem decodeWord_xorReg {w : Word} (h : w &&& 0xF00F#16 = 0x8003#16) :
    decodeWord w = .ok (.xorReg (xOf w) (yOf w)) := by
  have e := op_n_of_F00F 0x8#4 0x3#4 h
  simp [decodeWord, decodeFamily8, e.1, e.2]

theorem decodeWord_addReg {w : Word} (h : w &&& 0xF00F#16 = 0x8004#16) :
    decodeWord w = .ok (.addReg (xOf w) (yOf w)) := by
  have e := op_n_of_F00F 0x8#4 0x4#4 h
  simp [decodeWord, decodeFamily8, e.1, e.2]

theorem decodeWord_subReg {w : Word} (h : w &&& 0xF00F#16 = 0x8005#16) :
    decodeWord w = .ok (.subReg (xOf w) (yOf w)) := by
  have e := op_n_of_F00F 0x8#4 0x5#4 h
  simp [decodeWord, decodeFamily8, e.1, e.2]

theorem decodeWord_shr {w : Word} (h : w &&& 0xF00F#16 = 0x8006#16) :
    decodeWord w = .ok (.shr (xOf w) (yOf w)) := by
  have e := op_n_of_F00F 0x8#4 0x6#4 h
  simp [decodeWord, decodeFamily8, e.1, e.2]

theorem decodeWord_subnReg {w : Word} (h : w &&& 0xF00F#16 = 0x8007#16) :
    decodeWord w = .ok (.subnReg (xOf w) (yOf w)) := by
  have e := op_n_of_F00F 0x8#4 0x7#4 h
  simp [decodeWord, decodeFamily8, e.1, e.2]

theorem decodeWord_shl {w : Word} (h : w &&& 0xF00F#16 = 0x800E#16) :
    decodeWord w = .ok (.shl (xOf w) (yOf w)) := by
  have e := op_n_of_F00F 0x8#4 0xE#4 h
  simp [decodeWord, decodeFamily8, e.1, e.2]

theorem decodeWord_sneReg {w : Word} (h : w &&& 0xF000#16 = 0x9000#16) :
    decodeWord w = .ok (.sneReg (xOf w) (yOf w)) := by
  have e := op_of_F000 0x9#4 h
  simp [decodeWord, e]

theorem decodeWord_ldI {w : Word} (h : w &&& 0xF000#16 = 0xA000#16) :
    decodeWord w = .ok (.ldI (nnnOf w)) := by
  have e := op_of_F000 0xA#4 h
  simp [decodeWord, e]

theorem decodeWord_jpV0 {w : Word} (h : w &&& 0xF000#16 = 0xB000#16) :
    decodeWord w = .ok (.jpV0 (nnnOf w)) := by
  have e := op_of_F000 0xB#4 h
  simp [decodeWord, e]

theorem decodeWord_rnd {w : Word} (h : w &&& 0xF000#16 = 0xC000#16) :
    decodeWord w = .ok (.rnd (xOf w) (nnOf w)) := by
  have e := op_of_F000 0xC#4 h
  simp [decodeWord, e]

theorem decodeWord_drw {w : Word} (h : w &&& 0xF000#16 = 0xD000#16) :
    decodeWord w = .ok (.drw (xOf w) (yOf w) (nOf w)) := by
  have e := op_of_F000 0xD#4 h
  simp [decodeWord, e]

theorem decodeWord_skp {w : Word} (h : w &&& 0xF0FF#16 = 0xE09E#16) :
    decodeWord w = .ok (.skp (xOf w)) := by
  have e := op_nn_of_F0FF 0xE#4 0x9E#8 h
  simp [decodeWord, decodeFamilyE, e.1, e.2]

theorem decodeWord_sknp {w : Word} (h : w &&& 0xF0FF#16 = 0xE0A1#16) :
    decodeWord w = .ok (.sknp (xOf w)) := by
  have e := op_nn_of_F0FF 0xE#4 0xA1#8 h
  simp [decodeWord, decodeFamilyE, e.1, e.2]

theorem decodeWord_ldVxDt {w : Word} (h : w &&& 0xF0FF#16 = 0xF007#16) :
    decodeWord w = .ok (.ldVxDt (xOf w)) := by
  have e := op_nn_of_F0FF 0xF#4 0x07#8 h
  simp [decodeWord, decodeFamilyF, e.1, e.2]

theorem decodeWord_ldVxK {w : Word} (h : w &&& 0xF0FF#16 = 0xF00A#16) :
    decodeWord w = .ok (.ldVxK (xOf w)) := by
  have e := op_nn_of_F0FF 0xF#4 0x0A#8 h
  simp [decodeWord, decodeFamilyF, e.1, e.2]

theorem decodeWord_ldDtVx {w : Word} (h : w &&& 0xF0FF#16 = 0xF015#16) :
    decodeWord w = .ok (.ldDtVx (xOf w)) := by
  have e := op_nn_of_F0FF 0xF#4 0x15#8 h
  simp [decodeWord, decodeFamilyF, e.1, e.2]

theorem decodeWord_ldStVx {w : Word} (h : w &&& 0xF0FF#16 = 0xF018#16) :
    decodeWord w = .ok (.ldStVx (xOf w)) := by
  have e := op_nn_of_F0FF 0xF#4 0x18#8 h
  simp [decodeWord, decodeFamilyF, e.1, e.2]

theorem decodeWord_addI {w : Word} (h : w &&& 0xF0FF#16 = 0xF01E#16) :
    decodeWord w = .ok (.addI (xOf w)) := by
  have e := op_nn_of_F0FF 0xF#4 0x1E#8 h
  simp [decodeWord, decodeFamilyF, e.1, e.2]

theorem decodeWord_ldF {w : Word} (h : w &&& 0xF0FF#16 = 0xF029#16) :
    decodeWord w = .ok (.ldF (xOf w)) := by
  have e := op_nn_of_F0FF 0xF#4 0x29#8 h
  simp [decodeWord, decodeFamilyF, e.1, e.2]

theorem decodeWord_ldB {w : Word} (h : w &&& 0xF0FF#16 = 0xF033#16) :
    decodeWord w = .ok (.ldB (xOf w)) := by
  have e := op_nn_of_F0FF 0xF#4 0x33#8 h
  simp [decodeWord, decodeFamilyF, e.1, e.2]

theorem decodeWord_ldMemVx {w : Word} (h : w &&& 0xF0FF#16 = 0xF055#16) :
    decodeWord w = .ok (.ldMemVx (xOf w)) := by
  have e := op_nn_of_F0FF 0xF#4 0x55#8 h
  simp [decodeWord, decodeFamilyF, e.1, e.2]

theorem decodeWord_ldVxMem {w : Word} (h : w &&& 0xF0FF#16 = 0xF065#16) :
    decodeWord w = .ok (.ldVxMem (xOf w)) := by
  have e := op_nn_of_F0FF 0xF#4 0x65#8 h
  simp [decodeWord, decodeFamilyF, e.1, e.2]

end Sys2Proof
end

