-- ==== Sys2Proof/Laws/Memory.lean ====
section
/-! SUPPORT. Memory: what a read sees after a write, and the canonical form that every write keeps (20_memory.md rules R62, R63,
R71). The read laws need no premise on the list; the canonical form makes equal memories equal lists. -/

namespace Sys2Proof.Machine

/-! ### One byte -/

theorem Memory.read_erase_same (m : Memory) (a : Nat) : Memory.read (m.erase a) a = initialByte a := by
  induction m with
  | nil => rfl
  | cons c m ih =>
    by_cases h : c.1 = a
    · simpa [Memory.erase, h] using ih
    · simpa [Memory.erase, h, Memory.read] using ih

theorem Memory.read_erase_other (m : Memory) {a x : Nat} (hx : x ≠ a) : Memory.read (m.erase a) x = m.read x := by
  induction m with
  | nil => rfl
  | cons c m ih =>
    by_cases h : c.1 = a
    · have hcx : c.1 ≠ x := by omega
      simpa [Memory.erase, h, Memory.read, hcx, Ne.symm hx] using ih
    · by_cases hcx : c.1 = x
      · simp [Memory.erase, Memory.read, hcx, hx]
      · simpa [Memory.erase, h, Memory.read, hcx] using ih

theorem Memory.read_insert_other (m : Memory) {a x : Nat} (b : Byte) (hx : x ≠ a) :
    Memory.read (m.insert a b) x = m.read x := by
  induction m with
  | nil => simp [Memory.insert, Memory.read, Ne.symm hx]
  | cons c m ih =>
    unfold Memory.insert
    split
    · simp [Memory.read, ih]
    · simp [Memory.read, Ne.symm hx]

theorem Memory.read_insert_same (m : Memory) (a : Nat) (b : Byte) : Memory.read (m.insert a b) a = b := by
  induction m with
  | nil => simp [Memory.insert, Memory.read]
  | cons c m ih =>
    unfold Memory.insert
    split
    · have : c.1 ≠ a := by omega
      simp [Memory.read, ih, this]
    · simp [Memory.read]

/-- A read after a write: the byte written at its address, the byte from before at every other. -/
@[simp] theorem Memory.read_write (m : Memory) (a x : Nat) (b : Byte) :
    (m.write a b).read x = if x = a then b else m.read x := by
  unfold Memory.write
  split
  · next hb =>
    split
    · next hx => rw [hx, Memory.read_erase_same, hb]
    · next hx => exact Memory.read_erase_other m hx
  · split
    · next hx => rw [hx, Memory.read_insert_same]
    · next hx => rw [Memory.read_insert_other _ b hx, Memory.read_erase_other m hx]

/-! ### A block of bytes -/

@[simp] theorem Memory.length_readBytes (m : Memory) (a n : Nat) : (m.readBytes a n).length = n := by
  induction n generalizing a with
  | zero => rfl
  | succ n ih => simp [Memory.readBytes, ih]

/-- Byte k of a block read from a is the byte at a + k. -/
@[simp] theorem Memory.getElem_readBytes (m : Memory) (a n k : Nat) (h : k < (m.readBytes a n).length) :
    (m.readBytes a n)[k] = m.read (a + k) := by
  induction n generalizing a k with
  | zero => simp at h
  | succ n ih =>
    cases k with
    | zero => rfl
    | succ k =>
      simp only [Memory.readBytes, List.getElem_cons_succ, ih]
      congr 1; omega

/-- A block write leaves every address outside the block alone. -/
theorem Memory.read_writeBytes_outside (m : Memory) (bs : List Byte) {a x : Nat} (h : x < a ∨ a + bs.length ≤ x) :
    (m.writeBytes a bs).read x = m.read x := by
  induction bs generalizing m a with
  | nil => rfl
  | cons b bs ih =>
    simp only [List.length_cons] at h
    have hx : x ≠ a := by omega
    rw [Memory.writeBytes, ih _ (by omega), Memory.read_write, if_neg hx]

/-- A block write stores byte k at a + k. -/
theorem Memory.read_writeBytes_inside (m : Memory) (bs : List Byte) (a k : Nat) (h : k < bs.length) :
    (m.writeBytes a bs).read (a + k) = bs[k] := by
  induction bs generalizing m a k with
  | nil => simp at h
  | cons b bs ih =>
    cases k with
    | zero => rw [Memory.writeBytes, Memory.read_writeBytes_outside _ _ (by omega)]; simp
    | succ k =>
      have := ih (m.write a b) (a + 1) k (by simpa using h)
      rw [Memory.writeBytes, List.getElem_cons_succ, ← this]
      congr 1; omega

/-! ### The canonical form -/

theorem Memory.wfFrom_cons (lo : Nat) (k : Nat) (b : Byte) (m : Memory) :
    Memory.wfFrom lo ((k, b) :: m) = true ↔
      lo ≤ k ∧ k ≤ Config.lastAddr ∧ b ≠ initialByte k ∧ Memory.wfFrom (k + 1) m = true := by
  simp only [Memory.wfFrom, Bool.and_eq_true, decide_eq_true_eq, and_assoc]

theorem Memory.wfFrom_mono {lo lo' : Nat} (h : lo' ≤ lo) {m : Memory} (hm : m.wfFrom lo = true) : m.wfFrom lo' = true := by
  cases m with
  | nil => rfl
  | cons c m =>
    rw [Memory.wfFrom_cons] at hm ⊢
    exact ⟨by omega, hm.2⟩

theorem Memory.wfFrom_erase {lo : Nat} {m : Memory} (a : Nat) (hm : m.wfFrom lo = true) :
    Memory.wfFrom lo (m.erase a) = true := by
  induction m generalizing lo with
  | nil => rfl
  | cons c m ih =>
    rw [Memory.wfFrom_cons] at hm
    have rest := ih hm.2.2.2
    by_cases h : c.1 = a
    · have e : Memory.erase (c :: m) a = Memory.erase m a := by simp [Memory.erase, h]
      rw [e]; exact Memory.wfFrom_mono (by omega) rest
    · have e : Memory.erase (c :: m) a = c :: Memory.erase m a := by simp [Memory.erase, h]
      rw [e, Memory.wfFrom_cons]; exact ⟨hm.1, hm.2.1, hm.2.2.1, rest⟩

theorem Memory.erase_absent (m : Memory) (a : Nat) : ∀ c ∈ m.erase a, c.1 ≠ a := by
  intro c hc
  simpa using (List.mem_filter.mp hc).2

theorem Memory.wfFrom_insert {lo : Nat} {m : Memory} {a : Nat} {b : Byte} (hm : m.wfFrom lo = true) (hlo : lo ≤ a)
    (ha : a ≤ Config.lastAddr) (hb : b ≠ initialByte a) (absent : ∀ c ∈ m, c.1 ≠ a) :
    Memory.wfFrom lo (m.insert a b) = true := by
  induction m generalizing lo with
  | nil => rw [Memory.insert, Memory.wfFrom_cons]; exact ⟨hlo, ha, hb, rfl⟩
  | cons c m ih =>
    have hc : c.1 ≠ a := absent c (by simp)
    rw [Memory.wfFrom_cons] at hm
    unfold Memory.insert
    split
    · rw [Memory.wfFrom_cons]
      exact ⟨hm.1, hm.2.1, hm.2.2.1, ih hm.2.2.2 (by omega) fun c' h => absent c' (by simp [h])⟩
    · rw [Memory.wfFrom_cons]
      refine ⟨hlo, ha, hb, ?_⟩
      rw [Memory.wfFrom_cons]
      exact ⟨by omega, hm.2⟩

/-- Every write inside memory keeps the canonical form. -/
theorem Memory.wf_write {m : Memory} (hm : m.wf = true) {a : Nat} (ha : a ≤ Config.lastAddr) (b : Byte) :
    (m.write a b).wf = true := by
  unfold Memory.write
  split
  · exact Memory.wfFrom_erase a hm
  · next hb => exact Memory.wfFrom_insert (Memory.wfFrom_erase a hm) (by omega) ha hb (Memory.erase_absent m a)

/-- Every block write inside memory keeps the canonical form. -/
theorem Memory.wf_writeBytes {m : Memory} (hm : m.wf = true) (bs : List Byte) {a : Nat}
    (ha : a + bs.length ≤ Config.lastAddr + 1) : (m.writeBytes a bs).wf = true := by
  induction bs generalizing m a with
  | nil => exact hm
  | cons b bs ih =>
    simp only [List.length_cons] at ha
    exact ih (Memory.wf_write hm (by omega) b) (by omega)

/-- The memory at reset has the canonical form. -/
theorem Memory.wf_reset : State.reset.mem.wf = true := rfl

theorem Memory.read_below {lo a : Nat} {m : Memory} (hm : m.wfFrom lo = true) (ha : a < lo) : m.read a = initialByte a := by
  induction m generalizing lo with
  | nil => rfl
  | cons c m ih =>
    rw [Memory.wfFrom_cons] at hm
    have : c.1 ≠ a := by omega
    rw [Memory.read, if_neg this]
    exact ih hm.2.2.2 (by omega)

theorem Memory.ext_from {lo : Nat} {m m' : Memory} (hm : m.wfFrom lo = true) (hm' : m'.wfFrom lo = true)
    (h : ∀ a, m.read a = m'.read a) : m = m' := by
  induction m generalizing lo m' with
  | nil =>
    cases m' with
    | nil => rfl
    | cons c' m' =>
      rw [Memory.wfFrom_cons] at hm'
      exact absurd ((h c'.1).symm.trans rfl) (by simpa [Memory.read] using hm'.2.2.1)
  | cons c m ih =>
    rw [Memory.wfFrom_cons] at hm
    cases m' with
    | nil => exact absurd ((h c.1).trans rfl) (by simpa [Memory.read] using hm.2.2.1)
    | cons c' m' =>
      rw [Memory.wfFrom_cons] at hm'
      have hk : c.1 = c'.1 := by
        rcases Nat.lt_trichotomy c.1 c'.1 with hlt | heq | hgt
        · have := h c.1
          rw [Memory.read, if_pos rfl, Memory.read, if_neg (by omega), Memory.read_below hm'.2.2.2 (by omega)] at this
          exact absurd this hm.2.2.1
        · exact heq
        · have := h c'.1
          rw [Memory.read, if_neg (by omega), Memory.read_below hm.2.2.2 (by omega), Memory.read, if_pos rfl] at this
          exact absurd this.symm hm'.2.2.1
      have hb : c.2 = c'.2 := by
        have := h c.1
        rwa [Memory.read, if_pos rfl, Memory.read, if_pos hk.symm] at this
      have hrest : m = m' := by
        refine ih hm.2.2.2 (hk ▸ hm'.2.2.2) fun a => ?_
        by_cases ha : a = c.1
        · rw [Memory.read_below hm.2.2.2 (by omega), Memory.read_below hm'.2.2.2 (by omega)]
        · have := h a
          rwa [Memory.read, if_neg (Ne.symm ha), Memory.read, if_neg (by omega)] at this
      rw [hrest]
      congr 1
      exact Prod.ext hk hb

/-- Two memories in canonical form that read alike are the same list. -/
theorem Memory.ext {m m' : Memory} (hm : m.wf = true) (hm' : m'.wf = true) (h : ∀ a, m.read a = m'.read a) : m = m' :=
  Memory.ext_from hm hm' h

end Sys2Proof.Machine
end

