-- ==== Sys2Proof/Laws/State.lean ====
section
/-! SUPPORT. The fields of State after each named update: one lemma per field per update, true by rfl, so that no later proof
unfolds a record update; and the V registers and keys, read through their accessors. -/

namespace Sys2Proof.Machine

/-! ### setV -/

@[simp] theorem State.setV_mem (s : State) (x : Reg) (b : Byte) : (s.setV x b).mem = s.mem := rfl
@[simp] theorem State.setV_v (s : State) (x : Reg) (b : Byte) : (s.setV x b).v = s.v.set x.val b := rfl
@[simp] theorem State.setV_i (s : State) (x : Reg) (b : Byte) : (s.setV x b).i = s.i := rfl
@[simp] theorem State.setV_pc (s : State) (x : Reg) (b : Byte) : (s.setV x b).pc = s.pc := rfl
@[simp] theorem State.setV_sp (s : State) (x : Reg) (b : Byte) : (s.setV x b).sp = s.sp := rfl
@[simp] theorem State.setV_stack (s : State) (x : Reg) (b : Byte) : (s.setV x b).stack = s.stack := rfl
@[simp] theorem State.setV_dt (s : State) (x : Reg) (b : Byte) : (s.setV x b).dt = s.dt := rfl
@[simp] theorem State.setV_st (s : State) (x : Reg) (b : Byte) : (s.setV x b).st = s.st := rfl
@[simp] theorem State.setV_fb (s : State) (x : Reg) (b : Byte) : (s.setV x b).fb = s.fb := rfl
@[simp] theorem State.setV_key (s : State) (x : Reg) (b : Byte) : (s.setV x b).key = s.key := rfl
@[simp] theorem State.setV_fault (s : State) (x : Reg) (b : Byte) : (s.setV x b).fault = s.fault := rfl
@[simp] theorem State.setV_draws (s : State) (x : Reg) (b : Byte) : (s.setV x b).draws = s.draws := rfl
@[simp] theorem State.keyDown_setV (s : State) (x : Reg) (b : Byte) (k : Fin 16) : (s.setV x b).keyDown k = s.keyDown k := rfl

/-! ### setVFlag -/

@[simp] theorem State.setVFlag_mem (s : State) (x : Reg) (b f : Byte) : (s.setVFlag x b f).mem = s.mem := rfl
@[simp] theorem State.setVFlag_v (s : State) (x : Reg) (b f : Byte) : (s.setVFlag x b f).v = (s.v.set x.val b).set VF.val f := rfl
@[simp] theorem State.setVFlag_i (s : State) (x : Reg) (b f : Byte) : (s.setVFlag x b f).i = s.i := rfl
@[simp] theorem State.setVFlag_pc (s : State) (x : Reg) (b f : Byte) : (s.setVFlag x b f).pc = s.pc := rfl
@[simp] theorem State.setVFlag_sp (s : State) (x : Reg) (b f : Byte) : (s.setVFlag x b f).sp = s.sp := rfl
@[simp] theorem State.setVFlag_stack (s : State) (x : Reg) (b f : Byte) : (s.setVFlag x b f).stack = s.stack := rfl
@[simp] theorem State.setVFlag_dt (s : State) (x : Reg) (b f : Byte) : (s.setVFlag x b f).dt = s.dt := rfl
@[simp] theorem State.setVFlag_st (s : State) (x : Reg) (b f : Byte) : (s.setVFlag x b f).st = s.st := rfl
@[simp] theorem State.setVFlag_fb (s : State) (x : Reg) (b f : Byte) : (s.setVFlag x b f).fb = s.fb := rfl
@[simp] theorem State.setVFlag_key (s : State) (x : Reg) (b f : Byte) : (s.setVFlag x b f).key = s.key := rfl
@[simp] theorem State.setVFlag_fault (s : State) (x : Reg) (b f : Byte) : (s.setVFlag x b f).fault = s.fault := rfl
@[simp] theorem State.setVFlag_draws (s : State) (x : Reg) (b f : Byte) : (s.setVFlag x b f).draws = s.draws := rfl
@[simp] theorem State.keyDown_setVFlag (s : State) (x : Reg) (b f : Byte) (k : Fin 16) : (s.setVFlag x b f).keyDown k = s.keyDown k := rfl

/-! ### raise -/

@[simp] theorem State.raise_mem (s : State) (r : FaultRecord) : (s.raise r).mem = s.mem := rfl
@[simp] theorem State.raise_v (s : State) (r : FaultRecord) : (s.raise r).v = s.v := rfl
@[simp] theorem State.raise_i (s : State) (r : FaultRecord) : (s.raise r).i = s.i := rfl
@[simp] theorem State.raise_pc (s : State) (r : FaultRecord) : (s.raise r).pc = s.pc := rfl
@[simp] theorem State.raise_sp (s : State) (r : FaultRecord) : (s.raise r).sp = s.sp := rfl
@[simp] theorem State.raise_stack (s : State) (r : FaultRecord) : (s.raise r).stack = s.stack := rfl
@[simp] theorem State.raise_dt (s : State) (r : FaultRecord) : (s.raise r).dt = s.dt := rfl
@[simp] theorem State.raise_st (s : State) (r : FaultRecord) : (s.raise r).st = s.st := rfl
@[simp] theorem State.raise_fb (s : State) (r : FaultRecord) : (s.raise r).fb = s.fb := rfl
@[simp] theorem State.raise_key (s : State) (r : FaultRecord) : (s.raise r).key = s.key := rfl
@[simp] theorem State.raise_fault (s : State) (r : FaultRecord) : (s.raise r).fault = some r := rfl
@[simp] theorem State.raise_draws (s : State) (r : FaultRecord) : (s.raise r).draws = s.draws := rfl
@[simp] theorem State.getV_raise (s : State) (r : FaultRecord) (y : Reg) : (s.raise r).getV y = s.getV y := rfl
@[simp] theorem State.keyDown_raise (s : State) (r : FaultRecord) (k : Fin 16) : (s.raise r).keyDown k = s.keyDown k := rfl

/-! ### advance -/

@[simp] theorem State.advance_mem (s : State) : (s.advance).mem = s.mem := rfl
@[simp] theorem State.advance_v (s : State) : (s.advance).v = s.v := rfl
@[simp] theorem State.advance_i (s : State) : (s.advance).i = s.i := rfl
@[simp] theorem State.advance_pc (s : State) : (s.advance).pc = s.pc + 2#16 := rfl
@[simp] theorem State.advance_sp (s : State) : (s.advance).sp = s.sp := rfl
@[simp] theorem State.advance_stack (s : State) : (s.advance).stack = s.stack := rfl
@[simp] theorem State.advance_dt (s : State) : (s.advance).dt = s.dt := rfl
@[simp] theorem State.advance_st (s : State) : (s.advance).st = s.st := rfl
@[simp] theorem State.advance_fb (s : State) : (s.advance).fb = s.fb := rfl
@[simp] theorem State.advance_key (s : State) : (s.advance).key = s.key := rfl
@[simp] theorem State.advance_fault (s : State) : (s.advance).fault = s.fault := rfl
@[simp] theorem State.advance_draws (s : State) : (s.advance).draws = s.draws := rfl
@[simp] theorem State.getV_advance (s : State) (y : Reg) : (s.advance).getV y = s.getV y := rfl
@[simp] theorem State.keyDown_advance (s : State) (k : Fin 16) : (s.advance).keyDown k = s.keyDown k := rfl

/-! ### skipIf -/

@[simp] theorem State.skipIf_mem (s : State) (c : Bool) : (s.skipIf c).mem = s.mem := rfl
@[simp] theorem State.skipIf_v (s : State) (c : Bool) : (s.skipIf c).v = s.v := rfl
@[simp] theorem State.skipIf_i (s : State) (c : Bool) : (s.skipIf c).i = s.i := rfl
@[simp] theorem State.skipIf_pc (s : State) (c : Bool) : (s.skipIf c).pc = s.pc + (if c then 4#16 else 2#16) := rfl
@[simp] theorem State.skipIf_sp (s : State) (c : Bool) : (s.skipIf c).sp = s.sp := rfl
@[simp] theorem State.skipIf_stack (s : State) (c : Bool) : (s.skipIf c).stack = s.stack := rfl
@[simp] theorem State.skipIf_dt (s : State) (c : Bool) : (s.skipIf c).dt = s.dt := rfl
@[simp] theorem State.skipIf_st (s : State) (c : Bool) : (s.skipIf c).st = s.st := rfl
@[simp] theorem State.skipIf_fb (s : State) (c : Bool) : (s.skipIf c).fb = s.fb := rfl
@[simp] theorem State.skipIf_key (s : State) (c : Bool) : (s.skipIf c).key = s.key := rfl
@[simp] theorem State.skipIf_fault (s : State) (c : Bool) : (s.skipIf c).fault = s.fault := rfl
@[simp] theorem State.skipIf_draws (s : State) (c : Bool) : (s.skipIf c).draws = s.draws := rfl
@[simp] theorem State.getV_skipIf (s : State) (c : Bool) (y : Reg) : (s.skipIf c).getV y = s.getV y := rfl
@[simp] theorem State.keyDown_skipIf (s : State) (c : Bool) (k : Fin 16) : (s.skipIf c).keyDown k = s.keyDown k := rfl

/-! ### jumpTo -/

@[simp] theorem State.jumpTo_mem (s : State) (w : Word) : (s.jumpTo w).mem = s.mem := rfl
@[simp] theorem State.jumpTo_v (s : State) (w : Word) : (s.jumpTo w).v = s.v := rfl
@[simp] theorem State.jumpTo_i (s : State) (w : Word) : (s.jumpTo w).i = s.i := rfl
@[simp] theorem State.jumpTo_pc (s : State) (w : Word) : (s.jumpTo w).pc = w := rfl
@[simp] theorem State.jumpTo_sp (s : State) (w : Word) : (s.jumpTo w).sp = s.sp := rfl
@[simp] theorem State.jumpTo_stack (s : State) (w : Word) : (s.jumpTo w).stack = s.stack := rfl
@[simp] theorem State.jumpTo_dt (s : State) (w : Word) : (s.jumpTo w).dt = s.dt := rfl
@[simp] theorem State.jumpTo_st (s : State) (w : Word) : (s.jumpTo w).st = s.st := rfl
@[simp] theorem State.jumpTo_fb (s : State) (w : Word) : (s.jumpTo w).fb = s.fb := rfl
@[simp] theorem State.jumpTo_key (s : State) (w : Word) : (s.jumpTo w).key = s.key := rfl
@[simp] theorem State.jumpTo_fault (s : State) (w : Word) : (s.jumpTo w).fault = s.fault := rfl
@[simp] theorem State.jumpTo_draws (s : State) (w : Word) : (s.jumpTo w).draws = s.draws := rfl
@[simp] theorem State.getV_jumpTo (s : State) (w : Word) (y : Reg) : (s.jumpTo w).getV y = s.getV y := rfl
@[simp] theorem State.keyDown_jumpTo (s : State) (w : Word) (k : Fin 16) : (s.jumpTo w).keyDown k = s.keyDown k := rfl

/-! ### push -/

@[simp] theorem State.push_mem (s : State) (w : Word) (h : s.sp.toNat < 16) : (s.push w h).mem = s.mem := rfl
@[simp] theorem State.push_v (s : State) (w : Word) (h : s.sp.toNat < 16) : (s.push w h).v = s.v := rfl
@[simp] theorem State.push_i (s : State) (w : Word) (h : s.sp.toNat < 16) : (s.push w h).i = s.i := rfl
@[simp] theorem State.push_pc (s : State) (w : Word) (h : s.sp.toNat < 16) : (s.push w h).pc = s.pc := rfl
@[simp] theorem State.push_sp (s : State) (w : Word) (h : s.sp.toNat < 16) : (s.push w h).sp = s.sp + 1#8 := rfl
@[simp] theorem State.push_stack (s : State) (w : Word) (h : s.sp.toNat < 16) : (s.push w h).stack = s.stack.set s.sp.toNat w := rfl
@[simp] theorem State.push_dt (s : State) (w : Word) (h : s.sp.toNat < 16) : (s.push w h).dt = s.dt := rfl
@[simp] theorem State.push_st (s : State) (w : Word) (h : s.sp.toNat < 16) : (s.push w h).st = s.st := rfl
@[simp] theorem State.push_fb (s : State) (w : Word) (h : s.sp.toNat < 16) : (s.push w h).fb = s.fb := rfl
@[simp] theorem State.push_key (s : State) (w : Word) (h : s.sp.toNat < 16) : (s.push w h).key = s.key := rfl
@[simp] theorem State.push_fault (s : State) (w : Word) (h : s.sp.toNat < 16) : (s.push w h).fault = s.fault := rfl
@[simp] theorem State.push_draws (s : State) (w : Word) (h : s.sp.toNat < 16) : (s.push w h).draws = s.draws := rfl
@[simp] theorem State.getV_push (s : State) (w : Word) (h : s.sp.toNat < 16) (y : Reg) : (s.push w h).getV y = s.getV y := rfl
@[simp] theorem State.keyDown_push (s : State) (w : Word) (h : s.sp.toNat < 16) (k : Fin 16) : (s.push w h).keyDown k = s.keyDown k := rfl

/-! ### pop -/

@[simp] theorem State.pop_mem (s : State) : (s.pop).mem = s.mem := rfl
@[simp] theorem State.pop_v (s : State) : (s.pop).v = s.v := rfl
@[simp] theorem State.pop_i (s : State) : (s.pop).i = s.i := rfl
@[simp] theorem State.pop_pc (s : State) : (s.pop).pc = s.pc := rfl
@[simp] theorem State.pop_sp (s : State) : (s.pop).sp = s.sp - 1#8 := rfl
@[simp] theorem State.pop_stack (s : State) : (s.pop).stack = s.stack := rfl
@[simp] theorem State.pop_dt (s : State) : (s.pop).dt = s.dt := rfl
@[simp] theorem State.pop_st (s : State) : (s.pop).st = s.st := rfl
@[simp] theorem State.pop_fb (s : State) : (s.pop).fb = s.fb := rfl
@[simp] theorem State.pop_key (s : State) : (s.pop).key = s.key := rfl
@[simp] theorem State.pop_fault (s : State) : (s.pop).fault = s.fault := rfl
@[simp] theorem State.pop_draws (s : State) : (s.pop).draws = s.draws := rfl
@[simp] theorem State.getV_pop (s : State) (y : Reg) : (s.pop).getV y = s.getV y := rfl
@[simp] theorem State.keyDown_pop (s : State) (k : Fin 16) : (s.pop).keyDown k = s.keyDown k := rfl

/-! ### afterDraw -/

@[simp] theorem State.afterDraw_mem (s : State) : (s.afterDraw).mem = s.mem := rfl
@[simp] theorem State.afterDraw_v (s : State) : (s.afterDraw).v = s.v := rfl
@[simp] theorem State.afterDraw_i (s : State) : (s.afterDraw).i = s.i := rfl
@[simp] theorem State.afterDraw_pc (s : State) : (s.afterDraw).pc = s.pc := rfl
@[simp] theorem State.afterDraw_sp (s : State) : (s.afterDraw).sp = s.sp := rfl
@[simp] theorem State.afterDraw_stack (s : State) : (s.afterDraw).stack = s.stack := rfl
@[simp] theorem State.afterDraw_dt (s : State) : (s.afterDraw).dt = s.dt := rfl
@[simp] theorem State.afterDraw_st (s : State) : (s.afterDraw).st = s.st := rfl
@[simp] theorem State.afterDraw_fb (s : State) : (s.afterDraw).fb = s.fb := rfl
@[simp] theorem State.afterDraw_key (s : State) : (s.afterDraw).key = s.key := rfl
@[simp] theorem State.afterDraw_fault (s : State) : (s.afterDraw).fault = s.fault := rfl
@[simp] theorem State.afterDraw_draws (s : State) : (s.afterDraw).draws = s.draws + 1 := rfl
@[simp] theorem State.getV_afterDraw (s : State) (y : Reg) : (s.afterDraw).getV y = s.getV y := rfl
@[simp] theorem State.keyDown_afterDraw (s : State) (k : Fin 16) : (s.afterDraw).keyDown k = s.keyDown k := rfl

/-! ### timerTick -/

@[simp] theorem State.timerTick_mem (s : State) : (s.timerTick).mem = s.mem := rfl
@[simp] theorem State.timerTick_v (s : State) : (s.timerTick).v = s.v := rfl
@[simp] theorem State.timerTick_i (s : State) : (s.timerTick).i = s.i := rfl
@[simp] theorem State.timerTick_pc (s : State) : (s.timerTick).pc = s.pc := rfl
@[simp] theorem State.timerTick_sp (s : State) : (s.timerTick).sp = s.sp := rfl
@[simp] theorem State.timerTick_stack (s : State) : (s.timerTick).stack = s.stack := rfl
@[simp] theorem State.timerTick_dt (s : State) : (s.timerTick).dt = tickByte s.dt := rfl
@[simp] theorem State.timerTick_st (s : State) : (s.timerTick).st = tickByte s.st := rfl
@[simp] theorem State.timerTick_fb (s : State) : (s.timerTick).fb = s.fb := rfl
@[simp] theorem State.timerTick_key (s : State) : (s.timerTick).key = s.key := rfl
@[simp] theorem State.timerTick_fault (s : State) : (s.timerTick).fault = s.fault := rfl
@[simp] theorem State.timerTick_draws (s : State) : (s.timerTick).draws = s.draws := rfl
@[simp] theorem State.getV_timerTick (s : State) (y : Reg) : (s.timerTick).getV y = s.getV y := rfl
@[simp] theorem State.keyDown_timerTick (s : State) (k : Fin 16) : (s.timerTick).keyDown k = s.keyDown k := rfl

/-! ### V registers -/

/-- A register reads as last written; the others keep their values. -/
@[simp] theorem State.getV_setV (s : State) (x y : Reg) (b : Byte) :
    (s.setV x b).getV y = if y = x then b else s.getV y := by
  simp only [State.getV, State.setV, Vector.getElem_set, Fin.ext_iff, eq_comm]

theorem State.getV_setV_same (s : State) (x : Reg) (b : Byte) : (s.setV x b).getV x = b := by simp

theorem State.getV_setV_other (s : State) {x y : Reg} (b : Byte) (h : y ≠ x) : (s.setV x b).getV y = s.getV y := by
  simp [h]

/-- Result, then flag: VF reads as the flag, V[x] for x ≠ F as the result (42_family8_alu.md rule R170). -/
@[simp] theorem State.getV_setVFlag (s : State) (x y : Reg) (b f : Byte) :
    (s.setVFlag x b f).getV y = if y = VF then f else if y = x then b else s.getV y := by
  simp [State.setVFlag]

/-- Two register files with equal registers are equal. -/
theorem State.v_ext {s t : State} (h : ∀ x, s.getV x = t.getV x) : s.v = t.v :=
  Vector.ext fun k hk => h ⟨k, hk⟩

/-- A write of the value a register holds changes nothing. -/
theorem State.setV_getV (s : State) (x : Reg) : s.setV x (s.getV x) = s := by
  simp [State.setV, State.getV]

end Sys2Proof.Machine
end

