-- ==== Sys2Proof/Laws/Ops.lean ====
section
/-! SUPPORT. One spec lemma per shared operation of Machine/Ops.lean, Operands.lean and Flags.lean: what it can answer, said once,
to be cited instead of unfolding it. -/

namespace Sys2Proof.Machine

/-! ### Flags -/

theorem flagByte_of_true {b : Bool} (h : b = true) : flagByte b = 1#8 := by rw [h]; rfl

theorem flagByte_of_false {b : Bool} (h : b = false) : flagByte b = 0#8 := by rw [h]; rfl

/-- Old bit 0 as a number (R177). -/
theorem lowBitFlag_eq (a : Byte) : lowBitFlag a = BitVec.ofNat 8 (a.toNat % 2) := by revert a; decide

/-- Old bit 7 as a number (R179). -/
theorem highBitFlag_eq (a : Byte) : highBitFlag a = BitVec.ofNat 8 (a.toNat / 128) := by revert a; decide

/-! ### Registers as a block -/

@[simp] theorem State.length_regsUpTo (s : State) (x : Reg) : (s.regsUpTo x).length = x.val + 1 := by
  simp [State.regsUpTo]

/-- Byte k of V[0..x] is V[k]. -/
theorem State.getElem_regsUpTo (s : State) (x k : Reg) (h : k.val < (s.regsUpTo x).length) :
    (s.regsUpTo x)[k.val] = s.getV k := by
  simp [State.regsUpTo, State.getV]

/-- Loading bytes from V[k] on writes exactly those registers, and nothing but registers. -/
theorem State.loadRegs_spec (s : State) (bs : List Byte) (k : Nat) (hk : k + bs.length ≤ 16) :
    (∀ z : Reg, (hz : k ≤ z.val ∧ z.val < k + bs.length) → (s.loadRegs k bs).getV z = bs[z.val - k]'(by omega)) ∧
    (∀ z : Reg, z.val < k ∨ k + bs.length ≤ z.val → (s.loadRegs k bs).getV z = s.getV z) ∧
    s.loadRegs k bs = { s with v := (s.loadRegs k bs).v } := by
  induction bs generalizing s k with
  | nil => exact ⟨fun z hz => absurd hz.2 (by simpa using hz.1), fun _ _ => rfl, rfl⟩
  | cons b bs ih =>
    simp only [List.length_cons] at hk
    obtain ⟨h1, h2, h3⟩ := ih (s.setV (Fin.ofNat 16 k) b) (k + 1) (by omega)
    have hkv : (Fin.ofNat 16 k).val = k := Nat.mod_eq_of_lt (by omega)
    refine ⟨fun z hz => ?_, fun z hz => ?_, ?_⟩
    · simp only [List.length_cons] at hz
      by_cases hzk : z.val = k
      · have e : z = Fin.ofNat 16 k := Fin.ext (by omega)
        rw [State.loadRegs, h2 z (by omega), State.getV_setV, if_pos e]
        simp [hzk]
      · rw [State.loadRegs, h1 z (by omega), List.getElem_cons, dif_neg (by omega)]
        congr 1
    · simp only [List.length_cons] at hz
      have ne : z ≠ Fin.ofNat 16 k := fun e => by rw [e, hkv] at hz; omega
      rw [State.loadRegs, h2 z (by omega), State.getV_setV, if_neg ne]
    · rw [State.loadRegs]; exact h3

/-! ### The range check (20_memory.md rule R69) -/

/-- No bad address: every address of the block is ok. -/
theorem firstBad_none {ok : Nat → Bool} {a n : Nat} : firstBad ok a n = none ↔ ∀ x, a ≤ x → x < a + n → ok x = true := by
  induction n generalizing a with
  | zero => simp [firstBad]; omega
  | succ n ih =>
    unfold firstBad
    split
    · next h =>
      rw [ih]
      constructor
      · intro H x h1 h2
        by_cases e : x = a
        · rw [e]; exact h
        · exact H x (by omega) (by omega)
      · exact fun H x h1 h2 => H x (by omega) (by omega)
    · next h =>
      constructor
      · intro H; cases H
      · intro H; exact absurd (H a (by omega) (by omega)) h

/-- The bad address reported is in the block, is not ok, and every lower address of the block is ok. -/
theorem firstBad_some {ok : Nat → Bool} {a n bad : Nat} :
    firstBad ok a n = some bad ↔ a ≤ bad ∧ bad < a + n ∧ ok bad = false ∧ ∀ x, a ≤ x → x < bad → ok x = true := by
  induction n generalizing a with
  | zero => simp [firstBad]; omega
  | succ n ih =>
    unfold firstBad
    split
    · next h =>
      rw [ih]
      constructor
      · rintro ⟨h1, h2, h3, h4⟩
        refine ⟨by omega, by omega, h3, fun x hx1 hx2 => ?_⟩
        by_cases e : x = a
        · rw [e]; exact h
        · exact h4 x (by omega) hx2
      · rintro ⟨h1, h2, h3, h4⟩
        have : bad ≠ a := fun e => by rw [e, h] at h3; cases h3
        exact ⟨by omega, by omega, h3, fun x hx1 hx2 => h4 x (by omega) hx2⟩
    · next h =>
      have h' : ok a = false := by simpa using h
      constructor
      · intro H; cases H
        exact ⟨by omega, by omega, h', fun x h1 h2 => by omega⟩
      · rintro ⟨h1, h2, h3, h4⟩
        by_cases e : a = bad
        · rw [e]
        · rw [h4 a (by omega) (by omega)] at h'; cases h'

theorem readable_iff {a : Nat} : readable a = true ↔ a ≤ 0xFFF := decide_eq_true_iff

theorem writable_iff {a : Nat} : writable a = true ↔ 0x050 ≤ a ∧ a ≤ 0xFFF := by
  rw [writable, Bool.and_eq_true, decide_eq_true_iff, decide_eq_true_iff, Config.lastAddr, Config.fontEnd]; omega

/-- A block read inside memory answers its bytes (R62, R69). -/
theorem State.readBlock_inside (s : State) {a n : Nat} (h : n = 0 ∨ a + n ≤ 0x1000) :
    s.readBlock a n = .ok (s.mem.readBytes a n) := by
  have : firstBad readable a n = none := firstBad_none.2 fun x h1 h2 => readable_iff.2 (by omega)
  simp [State.readBlock, this]

/-- A block read that leaves memory answers the lowest address out of range (R69, R272). -/
theorem State.readBlock_outside (s : State) {a n : Nat} (hn : n ≠ 0) (h : 0x1000 < a + n) :
    s.readBlock a n = .error (max a 0x1000) := by
  have : firstBad readable a n = some (max a 0x1000) := by
    refine firstBad_some.2 ⟨by omega, by omega, ?_, fun x h1 h2 => readable_iff.2 (by omega)⟩
    rw [← Bool.not_eq_true, readable_iff]; omega
  simp [State.readBlock, this]

/-- A block write inside writable memory stores its bytes and changes nothing else (R63, R69). -/
theorem State.writeBlock_inside (s : State) {a : Nat} {bs : List Byte} (h0 : 0x050 ≤ a) (h : a + bs.length ≤ 0x1000) :
    s.writeBlock a bs = .ok { s with mem := s.mem.writeBytes a bs } := by
  have : firstBad writable a bs.length = none := firstBad_none.2 fun x h1 h2 => writable_iff.2 (by omega)
  simp [State.writeBlock, this]

/-- A block write that starts in the font region answers its first address (R63, R69). -/
theorem State.writeBlock_font (s : State) {a : Nat} {bs : List Byte} (hn : bs ≠ []) (h : a < 0x050) :
    s.writeBlock a bs = .error a := by
  have hl : 0 < bs.length := List.length_pos_of_ne_nil hn
  have : firstBad writable a bs.length = some a := by
    refine firstBad_some.2 ⟨by omega, by omega, ?_, fun x h1 h2 => by omega⟩
    rw [← Bool.not_eq_true, writable_iff]; omega
  simp [State.writeBlock, this]

/-- A block write above the font that leaves memory answers the lowest address out of range (R69, R272). -/
theorem State.writeBlock_outside (s : State) {a : Nat} {bs : List Byte} (hn : bs ≠ []) (h0 : 0x050 ≤ a)
    (h : 0x1000 < a + bs.length) : s.writeBlock a bs = .error (max a 0x1000) := by
  have hl : 0 < bs.length := List.length_pos_of_ne_nil hn
  have : firstBad writable a bs.length = some (max a 0x1000) := by
    refine firstBad_some.2 ⟨by omega, by omega, ?_, fun x h1 h2 => writable_iff.2 (by omega)⟩
    rw [← Bool.not_eq_true, writable_iff]; omega
  simp [State.writeBlock, this]

/-- Everything a block write can answer: the bytes stored in writable memory, or an address and no state. -/
theorem State.writeBlock_cases {s t : State} {a : Nat} {bs : List Byte} (h : s.writeBlock a bs = .ok t) :
    t = { s with mem := s.mem.writeBytes a bs } ∧ (bs = [] ∨ (0x050 ≤ a ∧ a + bs.length ≤ 0x1000)) := by
  unfold State.writeBlock at h
  split at h
  · cases h
  · next hb =>
    cases h
    refine ⟨rfl, ?_⟩
    rcases bs with _ | ⟨b, bs⟩
    · exact .inl rfl
    · right
      have h1 := writable_iff.1 (firstBad_none.1 hb a (by omega) (by simp))
      have h2 := writable_iff.1 (firstBad_none.1 hb (a + bs.length) (by omega) (by simp))
      simp only [List.length_cons]; omega

/-! ### The fetch (30_encoding.md rule R91) -/

/-- A fetch inside memory answers the two bytes at PC. -/
theorem State.fetch_inside (s : State) (h : s.pc.toNat ≤ 0xFFE) :
    s.fetch = .ok (assemble (s.mem.read s.pc.toNat) (s.mem.read (s.pc.toNat + 1))) := by
  have h1 : readable s.pc.toNat = true := readable_iff.2 (by omega)
  have h2 : readable (s.pc.toNat + 1) = true := readable_iff.2 (by omega)
  simp [State.fetch, State.memRead, h1, h2]

/-- A fetch at the last address fails at the second byte. -/
theorem State.fetch_last (s : State) (h : s.pc.toNat = 0xFFF) : s.fetch = .error 0x1000 := by
  simp [State.fetch, State.memRead, h, readable, Config.lastAddr]

/-- A fetch above memory fails at the first byte. -/
theorem State.fetch_above (s : State) (h : 0xFFF < s.pc.toNat) : s.fetch = .error s.pc.toNat := by
  have h1 : readable s.pc.toNat = false := by rw [← Bool.not_eq_true, readable_iff]; omega
  simp [State.fetch, State.memRead, h1]

/-- A fetch that answers a word was inside memory. -/
theorem State.pc_of_fetch {s : State} {w : Word} (h : s.fetch = .ok w) : s.pc.toNat ≤ 0xFFE := by
  by_contra hc
  rcases Nat.lt_or_ge 0xFFF s.pc.toNat with h1 | h1
  · rw [s.fetch_above h1] at h; cases h
  · rw [s.fetch_last (by omega)] at h; cases h

/-! ### The timers (60_exceptions.md rule R280) -/

/-- A tick takes one from a timer, with the floor at 0. -/
theorem toNat_tickByte (t : Byte) : (tickByte t).toNat = t.toNat - 1 := by revert t; decide

/-! ### The stack (10_state.md rules R28, R29) -/

/-- SP after a push, as a number. -/
theorem State.toNat_sp_push (s : State) (w : Word) (h : s.sp.toNat < 16) : (s.push w h).sp.toNat = s.sp.toNat + 1 := by
  simp only [State.push_sp, BitVec.toNat_add]
  simp; omega

/-- The entries after a push: the new one at the old SP, the others as before. -/
theorem State.stack_push (s : State) (w : Word) (h : s.sp.toNat < 16) (k : Fin 16) :
    (s.push w h).stack[k.val] = if s.sp.toNat = k.val then w else s.stack[k.val] := by
  simp [State.push, Vector.getElem_set]

/-- SP after a pop, as a number. -/
theorem State.toNat_sp_pop (s : State) (h : s.sp ≠ 0#8) : s.pop.sp.toNat = s.sp.toNat - 1 := by
  have h0 : s.sp.toNat ≠ 0 := fun e => h (BitVec.eq_of_toNat_eq (by simpa using e))
  have := s.sp.isLt
  simp only [State.pop_sp, BitVec.toNat_sub]
  simp; omega

/-! ### Pixels (10_state.md rule R34) -/

/-- A pixel reads as last written; the others keep their values. -/
theorem Framebuffer.pixel_setPixel (fb : Framebuffer) (px qx : Fin 64) (py qy : Fin 32) (b : Bool) :
    (fb.setPixel px py b).pixel qx qy = if qx = px ∧ qy = py then b else fb.pixel qx qy := by
  unfold Framebuffer.setPixel Framebuffer.pixel
  rw [Vector.getElem_set]
  by_cases hy : py.val = qy.val
  · have hy' : qy = py := Fin.ext hy.symm
    subst hy'
    by_cases hx : qx = px
    · subst hx; simp
    · have : px.val ≠ qx.val := fun e => hx (Fin.ext e.symm)
      simp [hx, this]
  · have : qy ≠ py := fun e => hy (by rw [e])
    simp [hy, this]

@[simp] theorem Framebuffer.pixel_blank (px : Fin 64) (py : Fin 32) : Framebuffer.blank.pixel px py = false := by
  simp [Framebuffer.pixel, Framebuffer.blank]

/-- Two framebuffers with equal pixels are equal. -/
theorem Framebuffer.ext {fb fb' : Framebuffer} (h : ∀ px py, fb.pixel px py = fb'.pixel px py) : fb = fb' :=
  Vector.ext fun j hj => Vector.ext fun k hk => h ⟨k, hk⟩ ⟨j, hj⟩

/-! ### The latch (45_familyE_F.md rule R233) -/

/-- No lowest key: no key is down. -/
theorem State.lowestKey_none (s : State) (h : ∀ k, s.keyDown k = false) : s.lowestKey = none := by
  rw [State.lowestKey, List.findIdx?_eq_none_iff]
  intro b hb
  obtain ⟨k, hk, rfl⟩ := List.mem_iff_getElem.1 hb
  have := h ⟨k, by simpa using hk⟩
  simpa [State.keyDown] using this

/-- The lowest key: it is down and no lower one is. -/
theorem State.lowestKey_some (s : State) (k : Fin 16) (h : s.keyDown k = true) (lower : ∀ j, j < k → s.keyDown j = false) :
    s.lowestKey = some k.val := by
  rw [State.lowestKey, List.findIdx?_eq_some_iff_getElem]
  refine ⟨by simp, by simpa [State.keyDown] using h, fun j hj => ?_⟩
  have := lower ⟨j, by omega⟩ hj
  simpa [State.keyDown] using this

end Sys2Proof.Machine
end

