-- ==== Sys2Proof/Laws/Draw.lean ====
section
/-! SUPPORT. The sprite draw (44_familyD_draw.md): one draw is a list of hits on different pixels, so the order of the hits does
not matter (rule R214 (a)), each pixel is flipped by its own hit alone (R211), and the collision mark is raised exactly by a
1-bit on a pixel that was true (R212). -/

namespace Sys2Proof.Machine

/-- A hit: the pixel (px, py), and the sprite bit that lands there. -/
abbrev Hit := (Fin 64 × Fin 32) × Bool

/-- Drawing hits one after the other. -/
def drawHits (hits : List Hit) (cv : Canvas) : Canvas := hits.foldl (fun cv h => drawBit cv h.1.1 h.1.2 h.2) cv

/-- One hit's effect on a pixel: flipped if the bit is 1 and it is this pixel. -/
theorem pixel_drawBit (cv : Canvas) (px qx : Fin 64) (py qy : Fin 32) (bit : Bool) :
    (drawBit cv px py bit).1.pixel qx qy = if bit = true ∧ (qx, qy) = (px, py) then !cv.1.pixel qx qy else cv.1.pixel qx qy := by
  unfold drawBit
  cases bit
  · simp
  · simp only [Framebuffer.pixel_setPixel, Prod.mk.injEq, if_true, true_and]
    split
    · next h => rw [h.1, h.2]
    · rfl

/-- One hit's effect on the collision mark. -/
theorem mark_drawBit (cv : Canvas) (px : Fin 64) (py : Fin 32) (bit : Bool) :
    (drawBit cv px py bit).2 = (cv.2 || (bit && cv.1.pixel px py)) := by
  unfold drawBit
  cases bit <;> simp

/-- Hits on different pixels: each pixel is flipped exactly if a 1-bit lands on it. -/
theorem pixel_drawHits (hits : List Hit) (cv : Canvas) (nodup : (hits.map Prod.fst).Nodup) (p : Fin 64 × Fin 32) :
    (drawHits hits cv).1.pixel p.1 p.2 = if (p, true) ∈ hits then !cv.1.pixel p.1 p.2 else cv.1.pixel p.1 p.2 := by
  induction hits generalizing cv with
  | nil => simp [drawHits]
  | cons h hits ih =>
    rw [List.map_cons, List.nodup_cons] at nodup
    have step : drawHits (h :: hits) cv = drawHits hits (drawBit cv h.1.1 h.1.2 h.2) := rfl
    rw [step, ih _ nodup.2, pixel_drawBit]
    by_cases hp : p = h.1
    · have absent : (p, true) ∉ hits := fun hm => nodup.1 (hp ▸ List.mem_map_of_mem hm)
      have here : (p, true) ∈ h :: hits ↔ h.2 = true := by
        rw [List.mem_cons, or_iff_left absent]
        exact ⟨fun e => by rw [← e], fun e => Prod.ext hp e.symm⟩
      have hp' : (p.1, p.2) = (h.1.1, h.1.2) := hp
      rw [if_neg absent]
      by_cases hb : h.2 = true
      · rw [if_pos ⟨hb, hp'⟩, if_pos (here.2 hb)]
      · rw [if_neg (fun c => hb c.1), if_neg (fun c => hb (here.1 c))]
    · have here : (p, true) ∈ h :: hits ↔ (p, true) ∈ hits := by
        rw [List.mem_cons]
        exact or_iff_right fun e => hp (congrArg Prod.fst e)
      have hp' : (p.1, p.2) ≠ (h.1.1, h.1.2) := hp
      have skip : ¬ (h.2 = true ∧ (p.1, p.2) = (h.1.1, h.1.2)) := fun c => hp' c.2
      simp only [here, if_neg skip]

/-- Hits on different pixels: the mark is raised exactly if a 1-bit lands on a pixel that was true before the draw. -/
theorem mark_drawHits (hits : List Hit) (cv : Canvas) (nodup : (hits.map Prod.fst).Nodup) :
    (drawHits hits cv).2 = true ↔ cv.2 = true ∨ ∃ p, (p, true) ∈ hits ∧ cv.1.pixel p.1 p.2 = true := by
  induction hits generalizing cv with
  | nil => simp [drawHits]
  | cons h hits ih =>
    rw [List.map_cons, List.nodup_cons] at nodup
    have step : drawHits (h :: hits) cv = drawHits hits (drawBit cv h.1.1 h.1.2 h.2) := rfl
    have others : ∀ p, (p, true) ∈ hits → (drawBit cv h.1.1 h.1.2 h.2).1.pixel p.1 p.2 = cv.1.pixel p.1 p.2 := by
      intro p hm
      rw [pixel_drawBit, if_neg]
      rintro ⟨-, e⟩
      have e' : p = h.1 := e
      exact nodup.1 (e' ▸ List.mem_map_of_mem hm)
    rw [step, ih _ nodup.2, mark_drawBit, Bool.or_eq_true, Bool.and_eq_true, or_assoc]
    refine or_congr Iff.rfl ⟨?_, ?_⟩
    · rintro (⟨hb, hp⟩ | ⟨p, hm, hp⟩)
      · exact ⟨h.1, by rw [← hb]; exact List.mem_cons_self, hp⟩
      · exact ⟨p, List.mem_cons_of_mem _ hm, by rwa [others p hm] at hp⟩
    · rintro ⟨p, hm, hp⟩
      rcases List.mem_cons.1 hm with e | hm
      · exact .inl ⟨(congrArg Prod.snd e).symm, by rw [← congrArg Prod.fst e]; exact hp⟩
      · exact .inr ⟨p, hm, by rw [others p hm]; exact hp⟩

/-- The hits of sprite row r. -/
def rowHits (ox oy r : Nat) (row : Byte) : List Hit :=
  (List.range 8).map fun c => ((Fin.ofNat 64 (ox + c), Fin.ofNat 32 (oy + r)), row.getLsbD (7 - c))

/-- The hits of the sprite rows r, r + 1, …. -/
def spriteHits (ox oy r : Nat) : List Byte → List Hit
  | [] => []
  | row :: rows => rowHits ox oy r row ++ spriteHits ox oy (r + 1) rows

theorem drawRow_eq (ox oy r : Nat) (row : Byte) (cv : Canvas) :
    drawRow ox oy r row cv = drawHits (rowHits ox oy r row) cv := by
  simp [drawRow, drawHits, rowHits, List.foldl_map]

/-- A draw is its hits, in order. -/
theorem drawRows_eq (ox oy r : Nat) (rows : List Byte) (cv : Canvas) :
    drawRows ox oy r rows cv = drawHits (spriteHits ox oy r rows) cv := by
  induction rows generalizing r cv with
  | nil => rfl
  | cons row rows ih =>
    rw [drawRows, ih, drawRow_eq, spriteHits, drawHits, drawHits, drawHits, List.foldl_append]

/-- The hits of a sprite: bit 7 - c of row k at ((ox + c) mod 64, (oy + r + k) mod 32) (R211). -/
theorem mem_spriteHits (ox oy r : Nat) (rows : List Byte) (h : Hit) :
    h ∈ spriteHits ox oy r rows ↔ ∃ k c : Nat, ∃ hk : k < rows.length, c < 8 ∧
      h = ((Fin.ofNat 64 (ox + c), Fin.ofNat 32 (oy + (r + k))), rows[k].getLsbD (7 - c)) := by
  induction rows generalizing r with
  | nil => simp [spriteHits]
  | cons row rows ih =>
    rw [spriteHits, List.mem_append, ih]
    constructor
    · rintro (hm | ⟨k, c, hk, hc, e⟩)
      · obtain ⟨c, hc, e⟩ := List.mem_map.1 hm
        exact ⟨0, c, by simp, List.mem_range.1 hc, e.symm⟩
      · refine ⟨k + 1, c, by simpa using hk, hc, ?_⟩
        rw [e, List.getElem_cons_succ]
        congr 4; omega
    · rintro ⟨k, c, hk, hc, e⟩
      cases k with
      | zero => exact .inl (List.mem_map.2 ⟨c, List.mem_range.2 hc, e.symm⟩)
      | succ k =>
        refine .inr ⟨k, c, by simpa using hk, hc, ?_⟩
        rw [e, List.getElem_cons_succ]
        congr 4; omega

theorem nodup_rowHits (ox oy r : Nat) (row : Byte) : ((rowHits ox oy r row).map Prod.fst).Nodup := by
  rw [rowHits, List.map_map]
  refine List.Nodup.map_on ?_ List.nodup_range
  intro c hc c' hc' e
  have hc := List.mem_range.1 hc
  have hc' := List.mem_range.1 hc'
  have e' : (ox + c) % 64 = (ox + c') % 64 := congrArg (fun p => (p.1 : Fin 64).val) e
  omega

/-- A sprite of at most 32 rows hits no pixel twice (R214 (a)). -/
theorem nodup_spriteHits (ox oy r : Nat) (rows : List Byte) (hr : rows.length ≤ 32) :
    ((spriteHits ox oy r rows).map Prod.fst).Nodup := by
  induction rows generalizing r with
  | nil => exact List.nodup_nil
  | cons row rows ih =>
    simp only [List.length_cons] at hr
    rw [spriteHits, List.map_append]
    refine List.Nodup.append (nodup_rowHits ox oy r row) (ih (r + 1) (by omega)) ?_
    intro p hp hp'
    obtain ⟨h, hm, rfl⟩ := List.mem_map.1 hp
    obtain ⟨h', hm', e⟩ := List.mem_map.1 hp'
    obtain ⟨c, -, rfl⟩ := List.mem_map.1 hm
    obtain ⟨k, c', hk, -, rfl⟩ := (mem_spriteHits _ _ _ _ _).1 hm'
    have e' : (oy + (r + 1 + k)) % 32 = (oy + r) % 32 := congrArg (fun p => (p.2 : Fin 32).val) e
    omega

/-- Everything a draw does to the framebuffer: it flips exactly the pixels a 1-bit lands on. -/
theorem pixel_drawRows (ox oy : Nat) (rows : List Byte) (cv : Canvas) (hr : rows.length ≤ 32) (px : Fin 64) (py : Fin 32) :
    (drawRows ox oy 0 rows cv).1.pixel px py =
      if ((px, py), true) ∈ spriteHits ox oy 0 rows then !cv.1.pixel px py else cv.1.pixel px py := by
  rw [drawRows_eq]
  exact pixel_drawHits _ cv (nodup_spriteHits ox oy 0 rows hr) (px, py)

/-- The collision mark after a draw from a clear mark: a 1-bit landed on a true pixel. -/
theorem mark_drawRows (ox oy : Nat) (rows : List Byte) (fb : Framebuffer) (hr : rows.length ≤ 32) :
    (drawRows ox oy 0 rows (fb, false)).2 = true ↔
      ∃ px py, ((px, py), true) ∈ spriteHits ox oy 0 rows ∧ fb.pixel px py = true := by
  rw [drawRows_eq, mark_drawHits _ _ (nodup_spriteHits ox oy 0 rows hr)]
  simp

/-- The pixels a sprite read from I has a 1-bit on (`State.SpriteOn`) are its hits. -/
theorem mem_spriteHits_iff_spriteOn (s : State) (x y : Reg) (n : Nibble) (px : Fin 64) (py : Fin 32) :
    ((px, py), true) ∈ spriteHits (s.getV x).toNat (s.getV y).toNat 0 (s.mem.readBytes s.i.toNat n.toNat) ↔
      s.SpriteOn x y n px py := by
  rw [mem_spriteHits]
  constructor
  · rintro ⟨k, c, hk, hc, e⟩
    simp only [Memory.length_readBytes] at hk
    rw [Memory.getElem_readBytes, Nat.zero_add] at e
    refine ⟨k, c, hk, hc, congrArg (fun h => h.1.1.val) e, congrArg (fun h => h.1.2.val) e, ?_⟩
    exact (congrArg Prod.snd e).symm
  · rintro ⟨r, c, hr, hc, hx, hy, hb⟩
    refine ⟨r, c, by simpa using hr, hc, ?_⟩
    rw [Memory.getElem_readBytes, Nat.zero_add, hb]
    exact Prod.ext (Prod.ext (Fin.ext hx) (Fin.ext hy)) rfl

end Sys2Proof.Machine
end

