-- ==== Sys2Proof/Laws/PerInstr.lean ====
section
/-! SUPPORT. Facts stated for every instruction, one lemma per constructor. -/

namespace Sys2Proof.Laws

/-- The check of unknown words (30_encoding.md rule R98) in terms of the word as a number. -/
theorem wordKnown_eq (w : Word) : wordKnown w =
    (if w.toNat / 4096 = 0x0 then decide (w.toNat % 256 ∈ [0xE0, 0xEE])
    else if w.toNat / 4096 = 0x8 then decide (w.toNat % 16 ∉ [0x8, 0x9, 0xA, 0xB, 0xC, 0xD, 0xF])
    else if w.toNat / 4096 = 0xE then decide (w.toNat % 256 ∈ [0x9E, 0xA1])
    else if w.toNat / 4096 = 0xF then
      decide (w.toNat % 256 ∈ [0x07, 0x0A, 0x15, 0x18, 0x1E, 0x29, 0x33, 0x55, 0x65])
    else true) := by
  have hop : (w >>> 12).toNat = w.toNat / 4096 := by simp [Nat.shiftRight_eq_div_pow]
  have hnn : (w &&& 0x00FF#16).toNat = w.toNat % 256 := by
    rw [BitVec.toNat_and]; exact Nat.and_two_pow_sub_one_eq_mod w.toNat 8
  have hn : (w &&& 0x000F#16).toNat = w.toNat % 16 := by
    rw [BitVec.toNat_and]; exact Nat.and_two_pow_sub_one_eq_mod w.toNat 4
  simp only [wordKnown, hop, hnn, hn]

/-- A word of family op, as `wordKnown` sees it. -/
theorem packA_div (op : Nibble) (nnn : Addr12) : (packA op nnn).toNat / 4096 = op.toNat := by
  have := nnn.isLt; rw [toNat_packA]; omega

theorem packXK_div (op : Nibble) (x : Reg) (nn : Byte) : (packXK op x nn).toNat / 4096 = op.toNat := by
  have := nn.isLt; rw [toNat_packXK]; omega

theorem packXK_mod (op : Nibble) (x : Reg) (nn : Byte) : (packXK op x nn).toNat % 256 = nn.toNat := by
  have := nn.isLt; rw [toNat_packXK]; omega

theorem packXYN_div (op : Nibble) (x y : Reg) (n : Nibble) : (packXYN op x y n).toNat / 4096 = op.toNat := by
  have := n.isLt; rw [toNat_packXYN]; omega

theorem packXYN_mod (op : Nibble) (x y : Reg) (n : Nibble) : (packXYN op x y n).toNat % 16 = n.toNat := by
  have := n.isLt; rw [toNat_packXYN]; omega

/-- The word the encoder writes is an instruction by the list of unknown words (rule R98), which was written apart from the
decoder and the encoder. -/
def EncodedWord.Statement (i : Instr) : Prop := wordKnown (encode i) = true

namespace EncodedWord

theorem cls : Statement (.cls) := by
  simp [Statement, wordKnown_eq, encode, packXK_div, packXK_mod]

theorem ret : Statement (.ret) := by
  simp [Statement, wordKnown_eq, encode, packXK_div, packXK_mod]

theorem jp (nnn : Addr12) : Statement (.jp nnn) := by
  simp [Statement, wordKnown_eq, encode, packA_div]

theorem call (nnn : Addr12) : Statement (.call nnn) := by
  simp [Statement, wordKnown_eq, encode, packA_div]

theorem seImm (x : Reg) (nn : Byte) : Statement (.seImm x nn) := by
  simp [Statement, wordKnown_eq, encode, packXK_div]

theorem sneImm (x : Reg) (nn : Byte) : Statement (.sneImm x nn) := by
  simp [Statement, wordKnown_eq, encode, packXK_div]

theorem seReg (x : Reg) (y : Reg) : Statement (.seReg x y) := by
  simp [Statement, wordKnown_eq, encode, packXYN_div]

theorem ldImm (x : Reg) (nn : Byte) : Statement (.ldImm x nn) := by
  simp [Statement, wordKnown_eq, encode, packXK_div]

theorem addImm (x : Reg) (nn : Byte) : Statement (.addImm x nn) := by
  simp [Statement, wordKnown_eq, encode, packXK_div]

theorem ldReg (x : Reg) (y : Reg) : Statement (.ldReg x y) := by
  simp [Statement, wordKnown_eq, encode, packXYN_div, packXYN_mod]

theorem orReg (x : Reg) (y : Reg) : Statement (.orReg x y) := by
  simp [Statement, wordKnown_eq, encode, packXYN_div, packXYN_mod]

theorem andReg (x : Reg) (y : Reg) : Statement (.andReg x y) := by
  simp [Statement, wordKnown_eq, encode, packXYN_div, packXYN_mod]

theorem xorReg (x : Reg) (y : Reg) : Statement (.xorReg x y) := by
  simp [Statement, wordKnown_eq, encode, packXYN_div, packXYN_mod]

theorem addReg (x : Reg) (y : Reg) : Statement (.addReg x y) := by
  simp [Statement, wordKnown_eq, encode, packXYN_div, packXYN_mod]

theorem subReg (x : Reg) (y : Reg) : Statement (.subReg x y) := by
  simp [Statement, wordKnown_eq, encode, packXYN_div, packXYN_mod]

theorem shr (x : Reg) (y : Reg) : Statement (.shr x y) := by
  simp [Statement, wordKnown_eq, encode, packXYN_div, packXYN_mod]

theorem subnReg (x : Reg) (y : Reg) : Statement (.subnReg x y) := by
  simp [Statement, wordKnown_eq, encode, packXYN_div, packXYN_mod]

theorem shl (x : Reg) (y : Reg) : Statement (.shl x y) := by
  simp [Statement, wordKnown_eq, encode, packXYN_div, packXYN_mod]

theorem sneReg (x : Reg) (y : Reg) : Statement (.sneReg x y) := by
  simp [Statement, wordKnown_eq, encode, packXYN_div]

theorem ldI (nnn : Addr12) : Statement (.ldI nnn) := by
  simp [Statement, wordKnown_eq, encode, packA_div]

theorem jpV0 (nnn : Addr12) : Statement (.jpV0 nnn) := by
  simp [Statement, wordKnown_eq, encode, packA_div]

theorem rnd (x : Reg) (nn : Byte) : Statement (.rnd x nn) := by
  simp [Statement, wordKnown_eq, encode, packXK_div]

theorem drw (x : Reg) (y : Reg) (n : Nibble) : Statement (.drw x y n) := by
  simp [Statement, wordKnown_eq, encode, packXYN_div]

theorem skp (x : Reg) : Statement (.skp x) := by
  simp [Statement, wordKnown_eq, encode, packXK_div, packXK_mod]

theorem sknp (x : Reg) : Statement (.sknp x) := by
  simp [Statement, wordKnown_eq, encode, packXK_div, packXK_mod]

theorem ldVxDt (x : Reg) : Statement (.ldVxDt x) := by
  simp [Statement, wordKnown_eq, encode, packXK_div, packXK_mod]

theorem ldVxK (x : Reg) : Statement (.ldVxK x) := by
  simp [Statement, wordKnown_eq, encode, packXK_div, packXK_mod]

theorem ldDtVx (x : Reg) : Statement (.ldDtVx x) := by
  simp [Statement, wordKnown_eq, encode, packXK_div, packXK_mod]

theorem ldStVx (x : Reg) : Statement (.ldStVx x) := by
  simp [Statement, wordKnown_eq, encode, packXK_div, packXK_mod]

theorem addI (x : Reg) : Statement (.addI x) := by
  simp [Statement, wordKnown_eq, encode, packXK_div, packXK_mod]

theorem ldF (x : Reg) : Statement (.ldF x) := by
  simp [Statement, wordKnown_eq, encode, packXK_div, packXK_mod]

theorem ldB (x : Reg) : Statement (.ldB x) := by
  simp [Statement, wordKnown_eq, encode, packXK_div, packXK_mod]

theorem ldMemVx (x : Reg) : Statement (.ldMemVx x) := by
  simp [Statement, wordKnown_eq, encode, packXK_div, packXK_mod]

theorem ldVxMem (x : Reg) : Statement (.ldVxMem x) := by
  simp [Statement, wordKnown_eq, encode, packXK_div, packXK_mod]

end EncodedWord

end Sys2Proof.Laws
end

