-- ==== Sys2Proof/Laws/Step.lean ====
section
/-! SUPPORT. What the meanings with more than one outcome can answer, and what a cycle can answer, said once
(30_encoding.md rule R104). -/

namespace Sys2Proof.Machine

/-! ### The meanings that can raise -/

/-- RET answers underflow, the popped state, or the reserved stop. -/
theorem execRet_cases (s : State) :
    (s.sp = 0#8 ∧ execRet s = .next (s.raise (.stackUnderflow s.pc))) ∨
    (∃ h : s.sp.toNat ≤ 16, s.sp ≠ 0#8 ∧ execRet s = .next (s.pop.jumpTo (s.topOfStack h))) ∨
    (16 < s.sp.toNat ∧ execRet s = .fault .reservedStackPointer) := by
  unfold execRet
  split
  · next h => exact .inl ⟨h, rfl⟩
  · next h =>
    split
    · next h' => exact .inr (.inl ⟨h', h, rfl⟩)
    · next h' => exact .inr (.inr ⟨by omega, rfl⟩)

/-- CALL answers overflow, the pushed state, or the reserved stop. -/
theorem execCall_cases (nnn : Addr12) (s : State) :
    (s.sp = 16#8 ∧ execCall nnn s = .next (s.raise (.stackOverflow s.pc))) ∨
    (∃ h : s.sp.toNat < 16, execCall nnn s = .next ((s.push (s.pc + 2#16) h).jumpTo (addrOperand nnn))) ∨
    (16 < s.sp.toNat ∧ execCall nnn s = .fault .reservedStackPointer) := by
  unfold execCall
  split
  · next h => exact .inl ⟨h, rfl⟩
  · next h =>
    split
    · next h' => exact .inr (.inl ⟨h', rfl⟩)
    · next h' =>
      have : s.sp.toNat ≠ 16 := fun e => h (BitVec.eq_of_toNat_eq (by simpa using e))
      exact .inr (.inr ⟨by omega, rfl⟩)

/-- A key skip answers the skip, or the fault in the key space. -/
theorem execSkp_cases (x : Reg) (s : State) :
    (∃ h : (s.getV x).toNat < 16, execSkp x s = .next (s.skipIf (s.keyDown ⟨(s.getV x).toNat, h⟩))) ∨
    (16 ≤ (s.getV x).toNat ∧ execSkp x s = raisedKey s (s.getV x).toNat) := by
  unfold execSkp
  split
  · next h => exact .inl ⟨h, rfl⟩
  · next h => exact .inr ⟨by omega, rfl⟩

/-- A key skip answers the skip, or the fault in the key space. -/
theorem execSknp_cases (x : Reg) (s : State) :
    (∃ h : (s.getV x).toNat < 16, execSknp x s = .next (s.skipIf (!s.keyDown ⟨(s.getV x).toNat, h⟩))) ∨
    (16 ≤ (s.getV x).toNat ∧ execSknp x s = raisedKey s (s.getV x).toNat) := by
  unfold execSknp
  split
  · next h => exact .inl ⟨h, rfl⟩
  · next h => exact .inr ⟨by omega, rfl⟩

/-- The key wait answers the lowest key, or the state unchanged. -/
theorem execLdVxK_cases (x : Reg) (s : State) :
    (∃ k, s.lowestKey = some k ∧ execLdVxK x s = .next (s.setV x (BitVec.ofNat 8 k)).advance) ∨
    (s.lowestKey = none ∧ execLdVxK x s = .next s) := by
  unfold execLdVxK
  split
  · next k h => exact .inl ⟨k, h, rfl⟩
  · next h => exact .inr ⟨h, rfl⟩

/-- A draw answers the fault at an address, or the drawn state with the n bytes at I. -/
theorem execDrw_cases (x y : Reg) (n : Nibble) (s : State) :
    (∃ bad, execDrw x y n s = raisedMem s bad) ∨
    execDrw x y n s = .next (s.drawSprite x y (s.mem.readBytes s.i.toNat n.toNat)).advance := by
  unfold execDrw State.readBlock
  cases firstBad readable s.i.toNat n.toNat with
  | some bad => exact .inl ⟨bad, rfl⟩
  | none => exact .inr rfl

/-- A block load answers the fault at an address, or the loaded state with the x + 1 bytes at I. -/
theorem execLdVxMem_cases (x : Reg) (s : State) :
    (∃ bad, execLdVxMem x s = raisedMem s bad) ∨
    execLdVxMem x s = .next (s.loadRegs 0 (s.mem.readBytes s.i.toNat (x.val + 1))).advance := by
  unfold execLdVxMem State.readBlock
  cases firstBad readable s.i.toNat (x.val + 1) with
  | some bad => exact .inl ⟨bad, rfl⟩
  | none => exact .inr rfl

/-- A BCD store answers the fault at an address, or three bytes stored in writable memory. -/
theorem execLdB_cases (x : Reg) (s : State) :
    (∃ bad, execLdB x s = raisedMem s bad) ∨
    (0x050 ≤ s.i.toNat ∧ s.i.toNat + 3 ≤ 0x1000 ∧
      execLdB x s = .next { s with mem := s.mem.writeBytes s.i.toNat (bcdDigits (s.getV x)) }.advance) := by
  unfold execLdB
  split
  · next bad _ => exact .inl ⟨bad, rfl⟩
  · next t ht =>
    obtain ⟨rfl, h | h⟩ := State.writeBlock_cases ht
    · cases h
    · exact .inr ⟨h.1, h.2, rfl⟩

/-- A block store answers the fault at an address, or x + 1 bytes stored in writable memory. -/
theorem execLdMemVx_cases (x : Reg) (s : State) :
    (∃ bad, execLdMemVx x s = raisedMem s bad) ∨
    (0x050 ≤ s.i.toNat ∧ s.i.toNat + (x.val + 1) ≤ 0x1000 ∧
      execLdMemVx x s = .next { s with mem := s.mem.writeBytes s.i.toNat (s.regsUpTo x) }.advance) := by
  unfold execLdMemVx
  split
  · next bad _ => exact .inl ⟨bad, rfl⟩
  · next t ht =>
    obtain ⟨rfl, h | h⟩ := State.writeBlock_cases ht
    · exact absurd (congrArg List.length h) (by simp)
    · rw [State.length_regsUpTo] at h
      exact .inr ⟨h.1, h.2, rfl⟩

/-! ### The cycle -/

/-- The end of a cycle that answers a next state: the timers ticked, or the fault raised. -/
theorem endCycle_next {r : Result} {t : State} (h : endCycle r = .next t) :
    ∃ u, r = .next u ∧ ((u.fault = none ∧ t = u.timerTick) ∨ (u.fault ≠ none ∧ t = u)) := by
  cases r with
  | next u =>
    simp only [endCycle] at h
    split at h
    · next hu => cases h; exact ⟨_, rfl, .inl ⟨hu, rfl⟩⟩
    · next hu => cases h; exact ⟨_, rfl, .inr ⟨hu, rfl⟩⟩
  | fault f => cases h
  | refused r => cases h

/-- Everything a cycle that answers a next state did: from a running machine, a fetch fault, or an instruction or unknown word
executed and then the timers ticked unless it raised. -/
theorem stepWith_cases {strict : Bool} {s t : State} (h : stepWith strict s = .next t) :
    s.fault = none ∧
    ((∃ bad, s.fetch = .error bad ∧ t = s.raise (.addressOutOfRange .mem bad s.pc)) ∨
     (∃ w u, s.fetch = .ok w ∧ execWord strict w s = .next u ∧
        ((u.fault = none ∧ t = u.timerTick) ∨ (u.fault ≠ none ∧ t = u)))) := by
  unfold stepWith at h
  split at h
  · cases h
  · next hf =>
    refine ⟨hf, ?_⟩
    split at h
    · next bad hb => cases h; exact .inl ⟨bad, hb, rfl⟩
    · next w hw =>
      obtain ⟨u, hu, ht⟩ := endCycle_next h
      exact .inr ⟨w, u, hw, hu, ht⟩

/-- A running machine with a fetched word runs it. -/
theorem stepWith_running {strict : Bool} {s : State} {w : Word} (hf : s.fault = none) (hw : s.fetch = .ok w) :
    stepWith strict s = endCycle (execWord strict w s) := by
  simp [stepWith, hf, hw]

/-- A word that decodes runs its instruction. -/
theorem execWord_known {strict : Bool} {w : Word} {i : Instr} (s : State) (h : decodeWord w = .ok i) :
    execWord strict w s = exec i s := by
  simp [execWord, h]

/-- A word that does not decode is an unknown word. -/
theorem execWord_unknown {strict : Bool} {w : Word} {e : DecodeReject} (s : State) (h : decodeWord w = .error e) :
    execWord strict w s = execUnknown strict w s := by
  simp [execWord, h]

end Sys2Proof.Machine
end

