-- ==== Sys2Proof/Tests/Slice0.lean ====
section
/-! SUPPORT. Tests of the model, each expected value taken from 95_test_vectors.md (the vector's id is in the docstring) or worked
out by hand from the rule named; and, for every statement with hypotheses, a witness that meets them. -/

namespace Sys2Proof.Tests

open Sys2Proof Sys2Proof.Machine

/-! ### Helpers -/

/-- The constructed state with word w at PC, high byte first: the start state of 95_test_vectors.md. -/
def start (w : Nat) : State := State.reset.withFetchWord 16 w

/-- s with word w at address pc, and PC there. -/
def startAt (s : State) (pc w : Nat) : State := { s with pc := BitVec.ofNat 16 pc }.withFetchWord 16 w

/-- s with the bytes from address a. -/
def withBytes (s : State) (a : Nat) (bytes : List Byte) : State := { s with mem := s.mem.writeBytes a bytes }

/-- s with the listed keys down. -/
def withKeys (s : State) (down : List Nat) : State := { s with key := Vector.ofFn fun k => decide (k.val ∈ down) }

/-- The framebuffer with the listed pixels true and the others false. -/
def lit (pixels : List (Fin 64 × Fin 32)) : Framebuffer :=
  pixels.foldl (fun fb p => fb.setPixel p.1 p.2 true) Framebuffer.blank

/-- The result is a next state that passes p. -/
def next (r : Result) (p : State → Bool) : Bool :=
  match r with
  | .next t => p t
  | .fault _ => false
  | .refused _ => false

/-- The result is s with the record in `fault`, and nothing else changed. -/
def raises (r : Result) (s : State) (record : FaultRecord) : Bool :=
  next r fun t => decide (t = { s with fault := some record })

/-- The result is a stop of the model for this reason. -/
def stops (r : Result) (f : Fault) : Bool :=
  match r with
  | .next _ => false
  | .fault g => decide (g = f)
  | .refused _ => false

/-! ### What WellFormed and the canonical form refuse -/

/-- R98: one word of each clause of the list of unknown words. -/
theorem test_unknown_words_refused :
    [0x0000#16, 0x0123#16, 0x8128#16, 0x8129#16, 0x812F#16, 0xE09F#16, 0xF0FF#16].all (fun w => !wordKnown w) = true := by decide

/-- R98: their neighbours are known. -/
theorem test_known_words_accepted :
    [0x03E0#16, 0x00EE#16, 0x8126#16, 0x812E#16, 0xE09E#16, 0xE0A1#16, 0xF065#16, 0x5121#16].all wordKnown = true := by decide

/-- V-H1 (W7): 3585 bytes do not fit. -/
theorem test_image_too_long_refused : imageFits (List.replicate 3585 0#8) = false := by
  rw [imageFits, List.length_replicate]
  decide

/-- V-H2 (W7): 3584 bytes fit. -/
theorem test_image_full_accepted : imageFits (List.replicate 3584 0#8) = true := by
  rw [imageFits, List.length_replicate]
  decide

/-- Memory that is unsorted, repeats an address, lists a byte as at construction (RAM, font), or lies outside, is refused. -/
theorem test_memory_form_refused :
    Memory.wf [(0x301, 1#8), (0x300, 1#8)] = false ∧ Memory.wf [(0x300, 1#8), (0x300, 2#8)] = false ∧
    Memory.wf [(0x300, 0#8)] = false ∧ Memory.wf [(0x000, 0xF0#8)] = false ∧ Memory.wf [(0x1000, 1#8)] = false := by decide

/-- A write of the byte at construction removes the entry; writes keep the order. -/
theorem test_memory_form_kept :
    Memory.writeBytes [] 0x301 [1#8, 2#8] = [(0x301, 1#8), (0x302, 2#8)] ∧
    Memory.write [(0x301, 1#8), (0x302, 2#8)] 0x301 0#8 = [(0x302, 2#8)] ∧
    Memory.write [(0x302, 2#8)] 0x300 7#8 = [(0x300, 7#8), (0x302, 2#8)] := by decide

/-- The decoder rejects by name: too few bytes, and an unknown word. -/
theorem test_decode_rejects :
    decode [] = .error .truncated ∧ decode [0x12#8] = .error .truncated ∧
    decode [0xF0#8, 0xFF#8, 0x00#8] = .error (.unknownWord 0xF0FF#16) := by
  and_intros <;> rfl

/-! ### Decoding: a word of every row, from R93 and R96 -/

/-- Families 0 to 2. -/
theorem test_decode_family0to2 :
    decodeWord 0x03E0#16 = .ok .cls ∧ decodeWord 0x0FEE#16 = .ok .ret ∧
    decodeWord 0x1300#16 = .ok (.jp 0x300#12) ∧ decodeWord 0x2FFE#16 = .ok (.call 0xFFE#12) := by
  and_intros <;> rfl

/-- Families 3 to 7. -/
theorem test_decode_family3to7 :
    decodeWord 0x3A42#16 = .ok (.seImm 10 0x42#8) ∧ decodeWord 0x4A42#16 = .ok (.sneImm 10 0x42#8) ∧
    decodeWord 0x5121#16 = .ok (.seReg 1 2) ∧ decodeWord 0x6AFF#16 = .ok (.ldImm 10 0xFF#8) ∧
    decodeWord 0x7F01#16 = .ok (.addImm 15 0x01#8) := by
  and_intros <;> rfl

/-- Family 8, operands x = 1, y = 2. -/
theorem test_decode_family8 :
    decodeWord 0x8120#16 = .ok (.ldReg 1 2) ∧ decodeWord 0x8121#16 = .ok (.orReg 1 2) ∧
    decodeWord 0x8122#16 = .ok (.andReg 1 2) ∧ decodeWord 0x8123#16 = .ok (.xorReg 1 2) ∧
    decodeWord 0x8124#16 = .ok (.addReg 1 2) ∧ decodeWord 0x8125#16 = .ok (.subReg 1 2) ∧
    decodeWord 0x8126#16 = .ok (.shr 1 2) ∧ decodeWord 0x8127#16 = .ok (.subnReg 1 2) ∧
    decodeWord 0x812E#16 = .ok (.shl 1 2) := by
  and_intros <;> rfl

/-- Families 9 to D. -/
theorem test_decode_family9toD :
    decodeWord 0x912F#16 = .ok (.sneReg 1 2) ∧ decodeWord 0xA123#16 = .ok (.ldI 0x123#12) ∧
    decodeWord 0xBFFF#16 = .ok (.jpV0 0xFFF#12) ∧ decodeWord 0xC3F0#16 = .ok (.rnd 3 0xF0#8) ∧
    decodeWord 0xDF01#16 = .ok (.drw 15 0 1#4) := by
  and_intros <;> rfl

/-- Families E and F. -/
theorem test_decode_familyEF :
    decodeWord 0xE29E#16 = .ok (.skp 2) ∧ decodeWord 0xE2A1#16 = .ok (.sknp 2) ∧
    decodeWord 0xF307#16 = .ok (.ldVxDt 3) ∧ decodeWord 0xF50A#16 = .ok (.ldVxK 5) ∧
    decodeWord 0xF015#16 = .ok (.ldDtVx 0) ∧ decodeWord 0xF418#16 = .ok (.ldStVx 4) ∧
    decodeWord 0xFF1E#16 = .ok (.addI 15) ∧ decodeWord 0xF229#16 = .ok (.ldF 2) ∧
    decodeWord 0xF133#16 = .ok (.ldB 1) ∧ decodeWord 0xFF55#16 = .ok (.ldMemVx 15) ∧
    decodeWord 0xF265#16 = .ok (.ldVxMem 2) := by
  and_intros <;> rfl

/-- The encoder writes the words of the programs of 95_test_vectors.md, and the host's numbering reads them. -/
theorem test_encode :
    encodeBytes (.drw 3 4 2#4) = [0xD3#8, 0x42#8] ∧ encodeBytes (.call 0x20A#12) = [0x22#8, 0x0A#8] ∧
    encodeBytes .ret = [0x00#8, 0xEE#8] ∧ decodeTableWord 16 0xD342 = some (.drw 3 4 2#4) := by decide

/-! ### Fetch, unknown words, halting -/

/-- V-F1: a fetch at 0xFFE is legal. -/
theorem test_fetch_last_word : next (step (startAt State.reset 0xFFE 0x1300)) (fun t => t.pc == 0x300#16) = true := by decide

/-- V-F2 and V-F6: the second fetch byte at 0xFFF is out of range, and DT does not tick. -/
theorem test_fetch_second_byte_out_of_range :
    raises (step { State.reset with pc := 0xFFF#16, dt := 3#8 }) { State.reset with pc := 0xFFF#16, dt := 3#8 }
      (.addressOutOfRange .mem 0x1000 0xFFF#16) = true := by decide

/-- V-F4: PC = 0x10FE. -/
theorem test_fetch_first_byte_out_of_range :
    raises (step { State.reset with pc := 0x10FE#16 }) { State.reset with pc := 0x10FE#16 }
      (.addressOutOfRange .mem 0x10FE 0x10FE#16) = true := by decide

/-- V-F5: an odd PC. -/
theorem test_fetch_odd :
    next (step (startAt State.reset 0x201 0x6007)) (fun t => t.getV 0 == 7#8 && t.pc == 0x203#16) = true := by decide

/-- V-U2: an unknown word advances PC, and the timers tick. -/
theorem test_unknown_is_noop :
    next (step { start 0x0123 with dt := 3#8 }) (fun t => t == { start 0x0123 with dt := 2#8, pc := 0x202#16 }) = true := by decide

/-- V-U6 and V-U7: strict mode. -/
theorem test_unknown_strict :
    raises (stepWith true (start 0x0000)) (start 0x0000) (.unknownOpcode 0x0000#16 0x200#16) = true ∧
    next (stepWith true (start 0x00E0)) (fun t => t.pc == 0x202#16) = true := by decide

/-- V-H6: a step after a fault (V-0-4) has no successor. -/
theorem test_halted :
    stops (step { start 0x00EE with fault := some (.stackUnderflow 0x200#16) }) (.halted (.stackUnderflow 0x200#16)) = true := by
  decide

/-- W8: the timers stop at 0. -/
theorem test_tick_floor : next (step (start 0x8000)) (fun t => t.dt == 0#8 && t.st == 0#8) = true := by decide

/-! ### Families 0 to 2 -/

/-- V-0-2: pixel (5,5) is cleared, whatever x is. -/
theorem test_cls : next (step { start 0x03E0 with fb := lit [(5, 5)] }) (fun t => t == { start 0x03E0 with pc := 0x202#16 }) = true := by
  decide

/-- V-0-3: the pop leaves the entry. -/
theorem test_ret :
    next (step (startAt { State.reset with sp := 1#8, stack := State.reset.stack.set 0 0x206#16 } 0x300 0x00EE))
      (fun t => t.sp == 0#8 && t.pc == 0x206#16 && t.stack[0] == 0x206#16) = true := by decide

/-- V-0-4. -/
theorem test_ret_underflow : raises (step (start 0x00EE)) (start 0x00EE) (.stackUnderflow 0x200#16) = true := by decide

/-- V-1-1. -/
theorem test_jp : next (step (start 0x1300)) (fun t => t == { start 0x1300 with pc := 0x300#16 }) = true := by decide

/-- V-2-2 and V-2-4: the 16th call, and the largest return address. -/
theorem test_call :
    next (step { start 0x2400 with sp := 15#8 })
      (fun t => t.stack[15] == 0x202#16 && t.sp == 16#8 && t.pc == 0x400#16) = true ∧
    next (step (startAt State.reset 0xFFE 0x2FFE))
      (fun t => t.stack[0] == 0x1000#16 && t.sp == 1#8 && t.pc == 0xFFE#16) = true := by decide

/-- V-2-3. -/
theorem test_call_overflow :
    raises (step { start 0x2400 with sp := 16#8 }) { start 0x2400 with sp := 16#8 } (.stackOverflow 0x200#16) = true := by decide

/-- R33, log 23: the reserved values of SP stop by name. -/
theorem test_reserved_sp :
    stops (step { start 0x2400 with sp := 17#8 }) .reservedStackPointer = true ∧
    stops (step { start 0x00EE with sp := 255#8 }) .reservedStackPointer = true := by decide

/-! ### Families 3 to 7 -/

/-- V-3-1, V-3-2. -/
theorem test_seImm :
    next (step ((start 0x3A42).setV 10 0x42#8)) (fun t => t.pc == 0x204#16) = true ∧
    next (step ((start 0x3A42).setV 10 0x41#8)) (fun t => t.pc == 0x202#16) = true := by decide

/-- V-4-1, V-4-2. -/
theorem test_sneImm :
    next (step ((start 0x4A42).setV 10 0x42#8)) (fun t => t.pc == 0x202#16) = true ∧
    next (step ((start 0x4A42).setV 10 0x41#8)) (fun t => t.pc == 0x204#16) = true := by decide

/-- V-5-2, V-5-3. -/
theorem test_seReg :
    next (step (((start 0x5121).setV 1 7#8).setV 2 7#8)) (fun t => t.pc == 0x204#16) = true ∧
    next (step (((start 0x5120).setV 1 7#8).setV 2 8#8)) (fun t => t.pc == 0x202#16) = true := by decide

/-- V-6-2. -/
theorem test_ldImm : next (step (start 0x6F01)) (fun t => t.getV VF == 1#8 && t.pc == 0x202#16) = true := by decide

/-- V-7-1. -/
theorem test_addImm :
    next (step (((start 0x7A01).setV 10 0xFF#8).setV VF 7#8)) (fun t => t.getV 10 == 0#8 && t.getV VF == 7#8) = true := by decide

/-! ### Family 8 -/

/-- The start state with word w, V1 = a, V2 = b, VF = f. -/
def alu (w : Nat) (a b f : Byte) : State := (((start w).setV 1 a).setV 2 b).setV VF f

/-- After the step, V1 = r and VF = f. -/
def gives (s : State) (r f : Byte) : Bool := next (step s) fun t => t.getV 1 == r && t.getV VF == f && t.pc == 0x202#16

/-- V-8-1. -/
theorem test_ldReg : gives (alu 0x8120 0x01#8 0x9C#8 0x00#8) 0x9C#8 0x00#8 = true := by decide

/-- V-8-2. -/
theorem test_orReg : gives (alu 0x8121 0x0F#8 0xF0#8 0x55#8) 0xFF#8 0x55#8 = true := by decide

/-- V-8-3. -/
theorem test_andReg : gives (alu 0x8122 0x3C#8 0x0F#8 0x55#8) 0x0C#8 0x55#8 = true := by decide

/-- V-8-4. -/
theorem test_xorReg : gives (alu 0x8123 0xFF#8 0x0F#8 0x55#8) 0xF0#8 0x55#8 = true := by decide

/-- V-8-5, V-8-6. -/
theorem test_addReg :
    gives (alu 0x8124 0xFF#8 0x01#8 0#8) 0x00#8 1#8 = true ∧ gives (alu 0x8124 0x80#8 0x7F#8 1#8) 0xFF#8 0#8 = true := by decide

/-- V-8-7: for x = F the flag is left. -/
theorem test_addReg_vf :
    next (step (((start 0x8F14).setV VF 0xFF#8).setV 1 1#8)) (fun t => t.getV VF == 1#8) = true := by decide

/-- V-8-9 to V-8-11. -/
theorem test_subReg :
    gives (alu 0x8125 5#8 3#8 0#8) 2#8 1#8 = true ∧ gives (alu 0x8125 3#8 5#8 1#8) 0xFE#8 0#8 = true ∧
    gives (alu 0x8125 5#8 5#8 0#8) 0#8 1#8 = true := by decide

/-- V-8-14, V-8-15. -/
theorem test_shr :
    gives (alu 0x8126 4#8 0#8 1#8) 2#8 0#8 = true ∧ gives (alu 0x8126 5#8 0xFF#8 0#8) 2#8 1#8 = true := by decide

/-- V-8-22: SHR VF shifts old VF and does not read V1. -/
theorem test_shr_vf : gives (alu 0x8F16 0x80#8 0#8 0#8) 0x80#8 0#8 = true := by decide

/-- V-8-17, V-8-18. -/
theorem test_subnReg :
    gives (alu 0x8127 3#8 5#8 0#8) 2#8 1#8 = true ∧ gives (alu 0x8127 5#8 3#8 1#8) 0xFE#8 0#8 = true := by decide

/-- V-8-19, V-8-20. -/
theorem test_shl :
    gives (alu 0x812E 0x81#8 0#8 0#8) 2#8 1#8 = true ∧ gives (alu 0x812E 0x40#8 0#8 1#8) 0x80#8 0#8 = true := by decide

/-! ### Families 9 to C -/

/-- V-9-2, V-9-3. -/
theorem test_sneReg :
    next (step (alu 0x9120 2#8 2#8 0#8)) (fun t => t.pc == 0x202#16) = true ∧
    next (step (alu 0x912F 1#8 2#8 0#8)) (fun t => t.pc == 0x204#16) = true := by decide

/-- V-A-1. -/
theorem test_ldI : next (step (start 0xA123)) (fun t => t == { start 0xA123 with i := 0x123#16, pc := 0x202#16 }) = true := by decide

/-- V-B-2, V-B-3. -/
theorem test_jpV0 :
    next (step ((start 0xBFFF).setV 0 0xFF#8)) (fun t => t.pc == 0x10FE#16 && t.fault == none) = true ∧
    next (step ((start 0xB500).setV 5 0x10#8)) (fun t => t.pc == 0x500#16) = true := by decide

/-- V-C-3: with mask 0xFF the draw itself. -/
theorem test_rnd (s : State) :
    ∃ t, exec (.rnd 3 0xFF#8) s = .next t ∧ t.getV 3 = Config.randomByte s.draws := by
  refine ⟨_, rfl, ?_⟩
  simp only [State.getV, State.advance, State.setV, State.afterDraw, State.drawByte]
  exact (Vector.getElem_set_self _).trans (BitVec.and_allOnes (w := 8))

/-- V-C-2: with mask 0x00, zero for any draw. -/
theorem test_rnd_zero (s : State) : ∃ t, exec (.rnd 3 0x00#8) s = .next t ∧ t.getV 3 = 0#8 := by
  refine ⟨_, rfl, ?_⟩
  simp only [State.getV, State.advance, State.setV, State.afterDraw, State.drawByte]
  exact (Vector.getElem_set_self _).trans BitVec.and_zero

/-! ### Family D -/

/-- The start state with word w, V0 = a, V1 = b, I = 0x300 and the sprite there, and the listed pixels true. -/
def sprite (w : Nat) (a b : Byte) (bytes : List Byte) (pixels : List (Fin 64 × Fin 32)) : State :=
  withBytes { ((start w).setV 0 a).setV 1 b with i := 0x300#16, fb := lit pixels } 0x300 bytes

/-- After the step the pixels of `on` are true, those of `off` false, and VF = f. -/
def shows (s : State) (on off : List (Fin 64 × Fin 32)) (f : Byte) : Bool :=
  next (step s) fun t => on.all (fun p => t.fb.pixel p.1 p.2) && off.all (fun p => !t.fb.pixel p.1 p.2) && t.getV VF == f

/-- V-D-5: both axes wrap. -/
theorem test_drw_wraps :
    shows (sprite 0xD012 63#8 31#8 [0xC0#8, 0x80#8] []) [(63, 31), (0, 31), (63, 0)] [(0, 0), (62, 31), (1, 31)] 0#8 = true := by
  decide

/-- V-D-3: a collision; V-D-4: none, by a 0-bit over a lit pixel. -/
theorem test_drw_collision :
    shows (sprite 0xD011 0#8 0#8 [0xC0#8] [(0, 0)]) [(1, 0)] [(0, 0), (2, 0)] 1#8 = true ∧
    shows (sprite 0xD011 0#8 0#8 [0x40#8] [(0, 0)]) [(0, 0), (1, 0)] [(2, 0)] 0#8 = true := by decide

/-- V-D-6: no effect when a sprite byte is out of range; V-D-8: height 0 reads nothing. -/
theorem test_drw_range :
    raises (step { start 0xD012 with i := 0xFFF#16 }) { start 0xD012 with i := 0xFFF#16 }
      (.addressOutOfRange .mem 0x1000 0x200#16) = true ∧
    shows { (start 0xD010).setV VF 1#8 with i := 0xFFFF#16 } [] [(0, 0)] 0#8 = true := by decide

/-- V-D-9: the x origin is the old VF. -/
theorem test_drw_vf_origin : shows ((sprite 0xDF01 0#8 0#8 [0x80#8] []).setV VF 3#8) [(3, 0)] [(0, 0)] 0#8 = true := by decide

/-- R210's pseudocode by hand, log 33: pixel (0,0) lit and a sprite of one 1-bit there. The first draw turns it off, VF = 1; the
second turns it on, VF = 0. -/
theorem test_drw_twice_on_a_lit_pixel :
    shows (sprite 0xD011 0#8 0#8 [0x80#8] [(0, 0)]) [] [(0, 0)] 1#8 = true ∧
    next (exec (.drw 0 1 1#4) (sprite 0xD011 0#8 0#8 [0x80#8] [(0, 0)])) (fun t =>
      next (exec (.drw 0 1 1#4) t) fun u => u.fb.pixel 0 0 && u.getV VF == 0#8) = true := by decide

/-! ### Families E and F -/

/-- V-E-1, V-E-2, V-E-5. -/
theorem test_skp :
    next (step (withKeys ((start 0xE29E).setV 2 5#8) [5])) (fun t => t.pc == 0x204#16) = true ∧
    next (step ((start 0xE29E).setV 2 5#8)) (fun t => t.pc == 0x202#16) = true ∧
    raises (step ((start 0xE29E).setV 2 0x10#8)) ((start 0xE29E).setV 2 0x10#8)
      (.addressOutOfRange .key 0x10 0x200#16) = true := by decide

/-- V-E-3, V-E-4, V-E-6. -/
theorem test_sknp :
    next (step ((start 0xE2A1).setV 2 5#8)) (fun t => t.pc == 0x204#16) = true ∧
    next (step (withKeys ((start 0xE2A1).setV 2 5#8) [5])) (fun t => t.pc == 0x202#16) = true ∧
    raises (step ((start 0xE2A1).setV 2 0xFF#8)) ((start 0xE2A1).setV 2 0xFF#8)
      (.addressOutOfRange .key 0xFF 0x200#16) = true := by decide

/-- V-F07-1: DT before the tick. -/
theorem test_ldVxDt :
    next (step { start 0xF307 with dt := 0x20#8 }) (fun t => t.getV 3 == 0x20#8 && t.dt == 0x1F#8) = true := by decide

/-- V-F0A-1: the lowest key. -/
theorem test_ldVxK : next (step (withKeys (start 0xF50A) [9, 3])) (fun t => t.getV 5 == 3#8 && t.pc == 0x202#16) = true := by decide

/-- V-F0A-2: the wait holds PC and ticks. -/
theorem test_ldVxK_wait :
    next (step { start 0xF50A with dt := 2#8, st := 1#8 })
      (fun t => t == { start 0xF50A with dt := 1#8, st := 0#8 }) = true := by decide

/-- V-F15-1: the tick of the same step. -/
theorem test_ldDtVx : next (step ((start 0xF015).setV 0 3#8)) (fun t => t.dt == 2#8 && t.st == 0#8) = true := by decide

/-- V-F18-1 with V-H5, V-F18-2. -/
theorem test_ldStVx :
    next (step ((start 0xF018).setV 0 0x10#8)) (fun t => readTimers t == (0#8, 0x0F#8) && soundActive t) = true ∧
    next (step ((start 0xF018).setV 0 1#8)) (fun t => t.st == 0#8 && !soundActive t) = true := by decide

/-- V-F1E-2, V-F1E-3. -/
theorem test_addI :
    next (step { (start 0xF11E).setV 1 1#8 with i := 0xFFFF#16 }) (fun t => t.i == 0#16 && t.getV VF == 1#8) = true ∧
    next (step { ((start 0xF11E).setV 1 1#8).setV VF 1#8 with i := 0x0FFF#16 })
      (fun t => t.i == 0x1000#16 && t.getV VF == 0#8 && t.fault == none) = true := by decide

/-- V-F1E-4: adds old VF. -/
theorem test_addI_vf :
    next (step { (start 0xFF1E).setV VF 2#8 with i := 0x300#16 }) (fun t => t.i == 0x302#16 && t.getV VF == 0#8) = true := by decide

/-- V-F29-1, V-F29-2. -/
theorem test_ldF :
    next (step ((start 0xF229).setV 2 0x0A#8)) (fun t => t.i == 0x032#16) = true ∧
    next (step ((start 0xF229).setV 2 0xFF#8)) (fun t => t.i == 0x4FB#16 && t.fault == none) = true := by decide

/-- The three bytes from a. -/
def three (t : State) (a : Nat) : List Byte := t.mem.readBytes a 3

/-- V-F33-1, V-F33-6. -/
theorem test_ldB :
    next (step { (start 0xF033).setV 0 0xFE#8 with i := 0x300#16 })
      (fun t => three t 0x300 == [2#8, 5#8, 4#8] && t.i == 0x300#16) = true ∧
    next (step { (start 0xF033).setV 0 7#8 with i := 0x050#16 }) (fun t => three t 0x050 == [0#8, 0#8, 7#8]) = true := by decide

/-- V-F33-4, V-F33-5. -/
theorem test_ldB_range :
    raises (step { start 0xF033 with i := 0xFFE#16 }) { start 0xF033 with i := 0xFFE#16 }
      (.addressOutOfRange .mem 0x1000 0x200#16) = true ∧
    raises (step { start 0xF033 with i := 0x04E#16 }) { start 0xF033 with i := 0x04E#16 }
      (.addressOutOfRange .mem 0x04E 0x200#16) = true := by decide

/-- V-F55-1. -/
theorem test_ldMemVx :
    next (step { (((start 0xF255).setV 0 1#8).setV 1 2#8).setV 2 3#8 with i := 0x400#16 })
      (fun t => three t 0x400 == [1#8, 2#8, 3#8] && t.mem.read 0x403 == 0#8 && t.i == 0x400#16) = true := by decide

/-- V-F55-2, V-F55-3. -/
theorem test_ldMemVx_range :
    raises (step { (start 0xF255).setV 0 1#8 with i := 0xFFE#16 }) { (start 0xF255).setV 0 1#8 with i := 0xFFE#16 }
      (.addressOutOfRange .mem 0x1000 0x200#16) = true ∧
    raises (step { start 0xF055 with i := 0x04F#16 }) { start 0xF055 with i := 0x04F#16 }
      (.addressOutOfRange .mem 0x04F 0x200#16) = true := by decide

/-- V-F65-1, V-F65-2. -/
theorem test_ldVxMem :
    next (step (withBytes { (start 0xF265).setV 3 9#8 with i := 0x300#16 } 0x300 [2#8, 5#8, 4#8, 8#8]))
      (fun t => t.getV 0 == 2#8 && t.getV 1 == 5#8 && t.getV 2 == 4#8 && t.getV 3 == 9#8 && t.i == 0x300#16) = true ∧
    next (step (start 0xF065)) (fun t => t.getV 0 == 0xF0#8) = true := by decide

/-- V-F65-3, V-F65-4. -/
theorem test_ldVxMem_range :
    raises (step { start 0xF265 with i := 0xFFE#16 }) { start 0xF265 with i := 0xFFE#16 }
      (.addressOutOfRange .mem 0x1000 0x200#16) = true ∧
    next (step (withBytes { (start 0xFF65).setV VF 1#8 with i := 0x400#16 } 0x40F [0xAB#8]))
      (fun t => t.getV VF == 0xAB#8 && t.getV 14 == 0#8) = true := by decide

/-! ### Host operations -/

/-- The load answers a state that passes p. -/
def loads (r : Except FaultRecord State) (p : State → Bool) : Bool :=
  match r with
  | .ok t => p t
  | .error _ => false

/-- V-H3, V-H4: an empty load; a load and a step. -/
theorem test_load :
    loads (boot []) (fun t => t == State.reset) = true ∧
    loads (boot [0x12#8, 0x00#8]) (fun t => next (step t) fun u => u.pc == 0x200#16) = true := by decide

/-- Program F of 95_test_vectors.md: set_keys replaces all keys. -/
theorem test_setKeys : (setKeys (withKeys State.reset [1]) (withKeys State.reset [11]).key).lowestKey = some 11 := by decide

/-! ### Witnesses: states and operands that meet the hypotheses of the statements -/

/-- DecodeFollowsTheOpcodeMap: 0x0000 matches no row, and 0x03E0 the row of 00E0. -/
theorem witness_DecodeFollowsTheOpcodeMap :
    (∀ i, 0x0000#16 &&& (rowOf i).2 ≠ (rowOf i).1) ∧ 0x03E0#16 &&& (rowOf .cls).2 = (rowOf .cls).1 := by
  refine ⟨fun i => ?_, by decide⟩
  cases i <;> simp [rowOf]

/-- DecodeReadsEveryFieldBit: a word with ignored bits set, and another that differs in them alone. -/
theorem witness_DecodeReadsEveryFieldBit :
    decodeWord 0x5121#16 = .ok (.seReg 1 2) ∧
    0x512F#16 &&& ~~~ignoredMask (.seReg 1 2) = 0x5121#16 &&& ~~~ignoredMask (.seReg 1 2) := by
  and_intros <;> rfl

/-- The encoding clauses of families 0 to 8: words of each row with every field bit and ignored bit set. -/
theorem witness_encodings_0to8 :
    0x0FE0#16 &&& 0xF0FF#16 = 0x00E0#16 ∧ 0x0FEE#16 &&& 0xF0FF#16 = 0x00EE#16 ∧ 0x1FFF#16 &&& 0xF000#16 = 0x1000#16 ∧
    0x2FFF#16 &&& 0xF000#16 = 0x2000#16 ∧ 0x3FFF#16 &&& 0xF000#16 = 0x3000#16 ∧ 0x4FFF#16 &&& 0xF000#16 = 0x4000#16 ∧
    0x5FFF#16 &&& 0xF000#16 = 0x5000#16 ∧ 0x6FFF#16 &&& 0xF000#16 = 0x6000#16 ∧ 0x7FFF#16 &&& 0xF000#16 = 0x7000#16 ∧
    0x8FF0#16 &&& 0xF00F#16 = 0x8000#16 ∧ 0x8FF1#16 &&& 0xF00F#16 = 0x8001#16 ∧ 0x8FF2#16 &&& 0xF00F#16 = 0x8002#16 ∧
    0x8FF3#16 &&& 0xF00F#16 = 0x8003#16 ∧ 0x8FF4#16 &&& 0xF00F#16 = 0x8004#16 ∧ 0x8FF5#16 &&& 0xF00F#16 = 0x8005#16 ∧
    0x8FF6#16 &&& 0xF00F#16 = 0x8006#16 ∧ 0x8FF7#16 &&& 0xF00F#16 = 0x8007#16 ∧ 0x8FFE#16 &&& 0xF00F#16 = 0x800E#16 := by
  decide

/-- The encoding clauses of families 9 to F. -/
theorem witness_encodings_9toF :
    0x9FFF#16 &&& 0xF000#16 = 0x9000#16 ∧ 0xAFFF#16 &&& 0xF000#16 = 0xA000#16 ∧ 0xBFFF#16 &&& 0xF000#16 = 0xB000#16 ∧
    0xCFFF#16 &&& 0xF000#16 = 0xC000#16 ∧ 0xDFFF#16 &&& 0xF000#16 = 0xD000#16 ∧ 0xEF9E#16 &&& 0xF0FF#16 = 0xE09E#16 ∧
    0xEFA1#16 &&& 0xF0FF#16 = 0xE0A1#16 ∧ 0xFF07#16 &&& 0xF0FF#16 = 0xF007#16 ∧ 0xFF0A#16 &&& 0xF0FF#16 = 0xF00A#16 ∧
    0xFF15#16 &&& 0xF0FF#16 = 0xF015#16 ∧ 0xFF18#16 &&& 0xF0FF#16 = 0xF018#16 ∧ 0xFF1E#16 &&& 0xF0FF#16 = 0xF01E#16 ∧
    0xFF29#16 &&& 0xF0FF#16 = 0xF029#16 ∧ 0xFF33#16 &&& 0xF0FF#16 = 0xF033#16 ∧ 0xFF55#16 &&& 0xF0FF#16 = 0xF055#16 ∧
    0xFF65#16 &&& 0xF0FF#16 = 0xF065#16 := by decide

/-- FetchIsBigEndianAndDoesNotWrap and FetchOutOfRangeFaults: the three clauses at their boundaries, in a running state. -/
theorem witness_Fetch :
    State.reset.fault = none ∧ (0xFFE#16).toNat ≤ 0xFFE ∧ (0xFFF#16).toNat = 0xFFF ∧ (0x1000#16).toNat > 0xFFF := by decide

/-- The hypotheses of StepRunsTheDecodedInstruction, for i in s. -/
def RunsAt (s : State) (i : Instr) : Prop :=
  s.fault = none ∧ s.pc.toNat ≤ 0xFFE ∧ decodeWord (assemble (s.mem.read s.pc.toNat) (s.mem.read (s.pc.toNat + 1))) = .ok i

/-- StepRunsTheDecodedInstruction: an instruction that completes, one that raises, and one that stops. -/
theorem witness_StepRunsTheDecodedInstruction :
    (RunsAt (startAt State.reset 0xFFE 0x1300) (.jp 0x300#12) ∧
      ∃ t, exec (.jp 0x300#12) (startAt State.reset 0xFFE 0x1300) = .next t ∧ t.fault = none) ∧
    (RunsAt (start 0x00EE) .ret ∧ ∃ t, exec .ret (start 0x00EE) = .next t ∧ t.fault ≠ none) ∧
    (RunsAt { start 0x00EE with sp := 17#8 } .ret ∧
      exec .ret { start 0x00EE with sp := 17#8 } = .fault .reservedStackPointer) := by
  refine ⟨⟨⟨rfl, by decide, rfl⟩, _, rfl, by decide⟩, ⟨⟨rfl, by decide, rfl⟩, _, rfl, by decide⟩, ⟨rfl, by decide, rfl⟩, rfl⟩

/-- UnknownWordStep. -/
theorem witness_UnknownWordStep :
    (start 0x0123).fault = none ∧ (start 0x0123).fetch = .ok 0x0123#16 ∧
    decodeWord 0x0123#16 = .error (.unknownWord 0x0123#16) := by
  and_intros <;> rfl

/-- HaltedMachineTakesNoStep. -/
theorem witness_HaltedMachineTakesNoStep :
    { State.reset with fault := some (.stackOverflow 0x200#16) }.fault = some (.stackOverflow 0x200#16) := by decide

/-- FaultingStepIsPrecise, and the raising clause of SourcesOfFaults. -/
theorem witness_FaultingStepIsPrecise :
    ∃ t, stepWith false (start 0x00EE) = .next t ∧ t.fault = some (.stackUnderflow 0x200#16) :=
  ⟨_, rfl, by decide⟩

/-- EveryCompletedStepTicksTheTimers, with one timer 0 and one not; and RunningMachineAlwaysSteps at SP = 16. -/
theorem witness_EveryCompletedStepTicksTheTimers :
    (∃ t, stepWith true { start 0x00E0 with dt := 1#8 } = .next t ∧ t.fault = none) ∧
    { start 0x2400 with sp := 16#8 }.fault = none ∧ { start 0x2400 with sp := 16#8 }.sp.toNat ≤ 16 :=
  ⟨⟨_, rfl, by decide⟩, by decide, by decide⟩

/-- StepKeepsTheInvariant and HostOperationsKeepTheInvariant: a state with the invariant, its step and a load into it. -/
theorem witness_StepKeepsTheInvariant :
    { State.reset with sp := 16#8, dt := 5#8, pc := 0x10FE#16 }.Inv ∧
    (∃ t, step { State.reset with sp := 16#8, dt := 5#8, pc := 0x10FE#16 } = .next t) ∧
    ∃ t, load { State.reset with sp := 16#8, dt := 5#8, pc := 0x10FE#16 } [0x12#8, 0x00#8] = .ok t := by
  refine ⟨⟨by decide, fun _ _ => rfl, by decide, by decide, by decide, fun r h => ?_⟩, ⟨_, rfl⟩, _, rfl⟩
  cases h

/-- LoadCopiesOrRejects: the two lengths where the clauses meet. -/
theorem witness_LoadCopiesOrRejects :
    (List.replicate 3584 0#8).length ≤ 3584 ∧ 3584 < (List.replicate 3585 0#8).length := by
  rw [List.length_replicate, List.length_replicate]
  decide

/-- RetPopsTheStack, CallPushesTheReturnAddress, CallThenReturn: SP at both ends of each clause. -/
theorem witness_RetAndCall :
    State.reset.sp = 0#8 ∧ { State.reset with sp := 1#8 }.sp.toNat = (0 : Fin 16).val + 1 ∧
    { State.reset with sp := 16#8 }.sp.toNat = (15 : Fin 16).val + 1 ∧ { State.reset with sp := 16#8 }.sp = 16#8 ∧
    State.reset.sp.toNat = (0 : Fin 16).val ∧ { State.reset with sp := 15#8 }.sp.toNat = (15 : Fin 16).val ∧
    State.reset.sp.toNat < 16 := by decide

/-- ReservedStackPointerStops: both ends. -/
theorem witness_ReservedStackPointerStops :
    16 < { State.reset with sp := 17#8 }.sp.toNat ∧ 16 < { State.reset with sp := 255#8 }.sp.toNat := by decide

/-- DoneStateOnlyTicks: V-1-2. -/
theorem witness_DoneStateOnlyTicks : (start 0x1200).Done ∧ (start 0x1200).fault = none :=
  ⟨⟨0x1200#16, 0x200#12, rfl, rfl, by decide⟩, by decide⟩

/-- ImmediateSkips and RegisterSkips: equal and unequal operands. -/
theorem witness_Skips :
    State.reset.getV 3 = 0#8 ∧ State.reset.getV 3 ≠ 1#8 ∧ State.reset.getV 3 = State.reset.getV 15 ∧
    (State.reset.setV 3 1#8).getV 3 ≠ (State.reset.setV 3 1#8).getV 15 := by decide

/-- AddRegisterCarry, SubtractionsNoBorrow: the sums 255 and 256, and the pairs 5, 5 and 4, 5. -/
theorem witness_AluFlags :
    ((alu 0 0xFF#8 0#8 0#8).getV 1).toNat + ((alu 0 0xFF#8 0#8 0#8).getV 2).toNat ≤ 255 ∧
    ((alu 0 0xFF#8 1#8 0#8).getV 1).toNat + ((alu 0 0xFF#8 1#8 0#8).getV 2).toNat > 255 ∧
    ((alu 0 5#8 5#8 0#8).getV 1).toNat ≥ ((alu 0 5#8 5#8 0#8).getV 2).toNat ∧
    ((alu 0 4#8 5#8 0#8).getV 1).toNat < ((alu 0 4#8 5#8 0#8).getV 2).toNat := by decide

/-- DrawXorsTheSprite and DrawTwiceRestores: the range at its end, with a sprite bit on a true pixel and one on a false one. -/
theorem witness_Draw :
    { State.reset with i := 0xFFF#16 }.i.toNat + (1#4).toNat ≤ 0x1000 ∧ (0 : Reg) ≠ VF ∧
    (sprite 0 0#8 0#8 [0xC0#8] [(0, 0)]).SpriteOn 0 1 1#4 0 0 ∧ (sprite 0 0#8 0#8 [0xC0#8] [(0, 0)]).fb.pixel 0 0 = true ∧
    (sprite 0 0#8 0#8 [0xC0#8] [(0, 0)]).SpriteOn 0 1 1#4 1 0 ∧ (sprite 0 0#8 0#8 [0xC0#8] [(0, 0)]).fb.pixel 1 0 = false := by
  refine ⟨by decide, by decide, ⟨0, 0, ?_⟩, by decide, ⟨0, 1, ?_⟩, by decide⟩ <;> decide

/-- DrawXorsTheSprite and DrawTwiceRestores: a blank sprite has a 1-bit on no pixel, so it meets the "not on" clauses. -/
theorem witness_Draw_blank (px : Fin 64) (py : Fin 32) : ¬ State.reset.SpriteOn 0 1 0#4 px py := by
  rintro ⟨r, c, hr, -⟩
  exact Nat.not_lt_zero r hr

/-- DrawTwiceRestores, the clause of R214 (b): a first draw that leaves VF 0, of a sprite with a 1-bit. -/
theorem witness_DrawTwiceRestores :
    (∃ t, exec (.drw 0 1 1#4) (sprite 0 0#8 0#8 [0x80#8] []) = .next t ∧ t.getV VF = 0#8) ∧
    ((sprite 0 0#8 0#8 [0x80#8] []).mem.read (0x300 + 0)).getLsbD (7 - 0) = true :=
  ⟨⟨_, rfl, by decide⟩, by decide⟩

/-- DrawOutOfRangeFaults: the lowest I, and a sprite that only its last row takes out of range. -/
theorem witness_DrawOutOfRangeFaults :
    1#4 ≠ 0#4 ∧ 0x1000 < { State.reset with i := 0x1000#16 }.i.toNat + (1#4).toNat ∧
    0x1000 < { State.reset with i := 0xFFF#16 }.i.toNat + (2#4).toNat := by decide

/-- KeySkips: V[x] = 15 with the key down and up, and V[x] = 16. -/
theorem witness_KeySkips :
    ((State.reset.setV 2 15#8).getV 2).toNat = (15 : Fin 16).val ∧ (withKeys State.reset [15]).keyDown 15 = true ∧
    State.reset.keyDown 15 = false ∧ 15 < ((State.reset.setV 2 16#8).getV 2).toNat := by decide

/-- KeyWait: no key down, and key 3 the lowest of two. -/
theorem witness_KeyWait :
    (∀ k, State.reset.keyDown k = false) ∧ (withKeys State.reset [3, 9]).keyDown 3 = true ∧
    ∀ j, j < 3 → (withKeys State.reset [3, 9]).keyDown j = false := by decide

/-- KeyWait, the waiting step. -/
theorem witness_KeyWait_step :
    (∀ k, (start 0xF50A).keyDown k = false) ∧ (start 0xF50A).fault = none ∧ (start 0xF50A).fetch = .ok 0xF50A#16 ∧
    decodeWord 0xF50A#16 = .ok (.ldVxK 5) :=
  ⟨by decide, rfl, rfl, rfl⟩

/-- TimerWriteTicksInTheSameStep. -/
theorem witness_TimerWriteTicksInTheSameStep :
    (start 0xF015).fault = none ∧ (start 0xF015).fetch = .ok 0xF015#16 ∧ decodeWord 0xF015#16 = .ok (.ldDtVx 0) ∧
    (start 0xF018).fetch = .ok 0xF018#16 ∧ decodeWord 0xF018#16 = .ok (.ldStVx 0) := by
  and_intros <;> rfl

/-- AddToIndex: the sums 0xFFFF and 0x10000. -/
theorem witness_AddToIndex :
    { State.reset with i := 0xFFFF#16 }.i.toNat + (State.reset.getV 1).toNat ≤ 0xFFFF ∧
    { State.reset with i := 0xFFFF#16 }.i.toNat + ((State.reset.setV 1 1#8).getV 1).toNat > 0xFFFF := by decide

/-- BcdStoresThreeDigits, StoreRegisters, StoreThenLoadRestores, LoadRegisters: I at both ends of each range. -/
theorem witness_Blocks :
    0x050 ≤ { State.reset with i := 0x050#16 }.i.toNat ∧ { State.reset with i := 0x050#16 }.i.toNat ≤ 0xFFD ∧
    { State.reset with i := 0xFFD#16 }.i.toNat ≤ 0xFFD ∧ { State.reset with i := 0xFF0#16 }.i.toNat + (15 : Reg).val ≤ 0xFFF ∧
    { State.reset with i := 0x050#16 }.i.toNat + (0 : Reg).val ≤ 0xFFF ∧
    0xFFF < { State.reset with i := 0xFF1#16 }.i.toNat + (15 : Reg).val := by decide

/-- StoresOutOfRangeFault: each clause where it begins. -/
theorem witness_StoresOutOfRangeFault :
    { State.reset with i := 0x04F#16 }.i.toNat ≤ 0x04F ∧ 0xFFF < { State.reset with i := 0xFFE#16 }.i.toNat + 2 ∧
    0x04F < { State.reset with i := 0xFFF#16 }.i.toNat ∧ 0xFFF < { State.reset with i := 0xFFF#16 }.i.toNat + (1 : Reg).val := by
  decide

/-- A state of the highest PC that NextFetchSeesTheStore covers, with I at a. -/
def beforeStore (a : Nat) : State := { State.reset with pc := 0xFFC#16, i := BitVec.ofNat 16 a }

/-- NextFetchSeesTheStore, Fx55: I at both bytes of the next word with x = 1 and x = 0, one byte below it with x = 2, and out of it. -/
theorem witness_NextFetchSeesTheStore_block :
    (beforeStore 0xFFE).pc.toNat ≤ 0xFFC ∧ 0x050 ≤ (beforeStore 0x050).i.toNat ∧
    (beforeStore 0xFFE).i.toNat + (1 : Reg).val ≤ 0xFFF ∧
    (beforeStore 0xFFE).i.toNat + (0 : Reg).val = (beforeStore 0xFFE).pc.toNat + 2 ∧
    (beforeStore 0xFFE).i.toNat + (1 : Reg).val = (beforeStore 0xFFE).pc.toNat + 3 ∧
    (beforeStore 0xFFD).i.toNat + (2 : Reg).val = (beforeStore 0xFFD).pc.toNat + 3 ∧
    (beforeStore 0xFFF).pc.toNat + 2 < (beforeStore 0xFFF).i.toNat ∧
    (beforeStore 0xFFE).i.toNat + (0 : Reg).val < (beforeStore 0xFFE).pc.toNat + 3 := by decide

/-- NextFetchSeesTheStore, Fx33: the last I, whose tens and ones are the next word, and an I below it. -/
theorem witness_NextFetchSeesTheStore_digits :
    (beforeStore 0xFFD).i.toNat ≤ 0xFFD ∧ (beforeStore 0xFFD).i.toNat + (1 : Fin 3).val = (beforeStore 0xFFD).pc.toNat + 2 ∧
    (beforeStore 0xFFD).i.toNat + (2 : Fin 3).val = (beforeStore 0xFFD).pc.toNat + 3 ∧
    (beforeStore 0xFFC).i.toNat + 2 < (beforeStore 0xFFC).pc.toNat + 3 ∧
    (beforeStore 0xFFB).i.toNat + 2 < (beforeStore 0xFFB).pc.toNat + 2 := by decide

/-- OnlyCallAndRetMoveTheStack, WritersOfTheSpecialState, WritersOfMemory: an instruction that meets every exclusion. -/
theorem witness_Writers :
    (∃ t, exec (.ldImm 3 1#8) State.reset = .next t) ∧ (∀ nnn, Instr.ldImm 3 1#8 ≠ .call nnn) ∧ Instr.ldImm 3 1#8 ≠ .ret ∧
    Instr.ldImm 3 1#8 ≠ .cls ∧ (∀ x y n, Instr.ldImm 3 1#8 ≠ .drw x y n) ∧ (∀ nnn, Instr.ldImm 3 1#8 ≠ .ldI nnn) ∧
    (∀ x, Instr.ldImm 3 1#8 ≠ .addI x ∧ Instr.ldImm 3 1#8 ≠ .ldF x ∧ Instr.ldImm 3 1#8 ≠ .ldDtVx x ∧
      Instr.ldImm 3 1#8 ≠ .ldStVx x ∧ Instr.ldImm 3 1#8 ≠ .ldB x ∧ Instr.ldImm 3 1#8 ≠ .ldMemVx x) ∧
    ∀ x nn, Instr.ldImm 3 1#8 ≠ .rnd x nn := by
  refine ⟨⟨_, rfl⟩, ?_⟩
  simp

/-- WritersOfTheRegisters: a register changed as the named destination, and VF changed as the flag. -/
theorem witness_WritersOfTheRegisters :
    (∃ t, exec (.ldImm 3 1#8) State.reset = .next t ∧ t.getV 3 ≠ State.reset.getV 3) ∧
    ∃ t, exec (.subReg 1 2) State.reset = .next t ∧ t.getV VF ≠ State.reset.getV VF :=
  ⟨⟨_, rfl, by decide⟩, _, rfl, by decide⟩

end Sys2Proof.Tests
end

namespace Sys2Proof.Machine

/-! ## The state (10_state.md): what an instruction can do to it, said once, and the statements of that family

### Fields after a draw and after a block load -/

section DrawAndLoad

variable (s : State) (x y z : Reg) (rows bs : List Byte) (k : Nat)

@[simp] theorem State.drawSprite_mem : (s.drawSprite x y rows).mem = s.mem := rfl
@[simp] theorem State.drawSprite_i : (s.drawSprite x y rows).i = s.i := rfl
@[simp] theorem State.drawSprite_pc : (s.drawSprite x y rows).pc = s.pc := rfl
@[simp] theorem State.drawSprite_sp : (s.drawSprite x y rows).sp = s.sp := rfl
@[simp] theorem State.drawSprite_stack : (s.drawSprite x y rows).stack = s.stack := rfl
@[simp] theorem State.drawSprite_dt : (s.drawSprite x y rows).dt = s.dt := rfl
@[simp] theorem State.drawSprite_st : (s.drawSprite x y rows).st = s.st := rfl
@[simp] theorem State.drawSprite_key : (s.drawSprite x y rows).key = s.key := rfl
@[simp] theorem State.drawSprite_fault : (s.drawSprite x y rows).fault = s.fault := rfl
@[simp] theorem State.drawSprite_draws : (s.drawSprite x y rows).draws = s.draws := rfl

/-- A draw writes VF and no other register (R22, R212). -/
theorem State.getV_drawSprite_other (h : z ≠ VF) : (s.drawSprite x y rows).getV z = s.getV z :=
  State.getV_setV_other _ _ h

/-- A block load writes nothing but registers (R240). -/
theorem State.loadRegs_frame : s.loadRegs k bs = { s with v := (s.loadRegs k bs).v } := by
  induction bs generalizing s k with
  | nil => rfl
  | cons b bs ih => exact ih (s.setV (Fin.ofNat 16 k) b) (k + 1)

@[simp] theorem State.loadRegs_mem : (s.loadRegs k bs).mem = s.mem := by rw [s.loadRegs_frame]
@[simp] theorem State.loadRegs_i : (s.loadRegs k bs).i = s.i := by rw [s.loadRegs_frame]
@[simp] theorem State.loadRegs_pc : (s.loadRegs k bs).pc = s.pc := by rw [s.loadRegs_frame]
@[simp] theorem State.loadRegs_sp : (s.loadRegs k bs).sp = s.sp := by rw [s.loadRegs_frame]
@[simp] theorem State.loadRegs_stack : (s.loadRegs k bs).stack = s.stack := by rw [s.loadRegs_frame]
@[simp] theorem State.loadRegs_dt : (s.loadRegs k bs).dt = s.dt := by rw [s.loadRegs_frame]
@[simp] theorem State.loadRegs_st : (s.loadRegs k bs).st = s.st := by rw [s.loadRegs_frame]
@[simp] theorem State.loadRegs_fb : (s.loadRegs k bs).fb = s.fb := by rw [s.loadRegs_frame]
@[simp] theorem State.loadRegs_key : (s.loadRegs k bs).key = s.key := by rw [s.loadRegs_frame]
@[simp] theorem State.loadRegs_fault : (s.loadRegs k bs).fault = s.fault := by rw [s.loadRegs_frame]
@[simp] theorem State.loadRegs_draws : (s.loadRegs k bs).draws = s.draws := by rw [s.loadRegs_frame]

end DrawAndLoad

/-! ### Jump targets (R27) -/

theorem toNat_addrOperand (nnn : Addr12) : (addrOperand nnn).toNat = nnn.toNat :=
  BitVec.toNat_setWidth_of_le (by decide)

theorem addrOperand_le_maxPc (nnn : Addr12) : (addrOperand nnn).toNat ≤ maxPc := by
  rw [toNat_addrOperand, maxPc]
  omega

/-- The highest target of Bnnn is 0xFFF + 0xFF: the sum does not wrap (R27, R192). -/
theorem indexedTarget_le_maxPc (nnn : Addr12) (b : Byte) : (addrOperand nnn + wordOfByte b).toNat ≤ maxPc := by
  have hb : (wordOfByte b).toNat = b.toNat := BitVec.toNat_setWidth_of_le (by decide)
  rw [BitVec.toNat_add, toNat_addrOperand, hb, maxPc]
  omega

/-! ### Everything an instruction can do -/

/-- `Effect s i t`: t is a next state that instruction i may give from s. Instructions that act alike share a constructor, which
keeps of the instruction only what R22, R23, R28, R68 and R271 say of it. -/
inductive Effect (s : State) : Instr → State → Prop
  /-- A fault of the instruction's own (R271, R273). -/
  | raise {i : Instr} {r : FaultRecord} (own : canRaise i = true) (hr : r.At s.pc) : Effect s i (s.raise r)
  /-- Fx0A with no key down (R233). -/
  | wait (x : Reg) : Effect s (.ldVxK x) s
  /-- A skip instruction (R150 to R152, R190, R230, R231). -/
  | skip {i : Instr} (c : Bool) : Effect s i (s.skipIf c)
  /-- 1nnn and Bnnn, to a target in the range of R27. -/
  | jump {i : Instr} {w : Word} (hw : w.toNat ≤ maxPc) : Effect s i (s.jumpTo w)
  /-- 00EE with a return address on the stack (R131). -/
  | ret (h0 : s.sp ≠ 0#8) (h : s.sp.toNat ≤ 16) : Effect s .ret (s.pop.jumpTo (s.topOfStack h))
  /-- 2nnn with room on the stack (R133). -/
  | call (nnn : Addr12) (h : s.sp.toNat < 16) :
      Effect s (.call nnn) ((s.push (s.pc + 2#16) h).jumpTo (addrOperand nnn))
  /-- An instruction that writes V[x] alone (R22). -/
  | writeReg {i : Instr} {x : Reg} (b : Byte) (hx : namesAsDestination x i = true) : Effect s i (s.setV x b).advance
  /-- An instruction that writes V[x], then VF as a flag (R170). -/
  | writeRegFlag {i : Instr} {x : Reg} (b f : Byte) (hx : namesAsDestination x i = true) (hf : writesVfAsFlag i = true) :
      Effect s i (s.setVFlag x b f).advance
  /-- 00E0 (R130). -/
  | cls : Effect s .cls { s with fb := Framebuffer.blank }.advance
  /-- Annn (R191). -/
  | ldI (nnn : Addr12) : Effect s (.ldI nnn) { s with i := addrOperand nnn }.advance
  /-- Cxnn (R193). -/
  | rnd (x : Reg) (nn b : Byte) : Effect s (.rnd x nn) (s.afterDraw.setV x b).advance
  /-- Dxyn inside memory (R210). -/
  | drw (x y : Reg) (n : Nibble) (rows : List Byte) : Effect s (.drw x y n) (s.drawSprite x y rows).advance
  /-- Fx15 (R234). -/
  | ldDtVx (x : Reg) (b : Byte) : Effect s (.ldDtVx x) { s with dt := b }.advance
  /-- Fx18 (R235). -/
  | ldStVx (x : Reg) (b : Byte) : Effect s (.ldStVx x) { s with st := b }.advance
  /-- Fx1E (R236). -/
  | addI (x : Reg) (w : Word) (f : Byte) : Effect s (.addI x) ({ s with i := w }.setV VF f).advance
  /-- Fx29 (R237). -/
  | ldF (x : Reg) (w : Word) : Effect s (.ldF x) { s with i := w }.advance
  /-- Fx33 and Fx55, in writable memory (R63, R69). -/
  | store {i : Instr} (bs : List Byte) (writer : ∃ x, i = .ldB x ∨ i = .ldMemVx x) (lo : 0x050 ≤ s.i.toNat)
      (hi : s.i.toNat + bs.length ≤ 0x1000) : Effect s i { s with mem := s.mem.writeBytes s.i.toNat bs }.advance
  /-- Fx65 inside memory (R240). -/
  | load (x : Reg) (bs : List Byte) (hbs : bs.length = x.val + 1) : Effect s (.ldVxMem x) (s.loadRegs 0 bs).advance

/-- A meaning known to answer t from s answers no other state. -/
theorem Effect.of_eq {s t u : State} {i : Instr} (h : exec i s = .next t) (e : exec i s = .next u) (he : Effect s i u) :
    Effect s i t := by
  obtain rfl := Host.Outcome.next.inj (e.symm.trans h)
  exact he

/-- Every next state of an instruction is one of its effects. -/
theorem exec_effect {i : Instr} {s t : State} (h : exec i s = .next t) : Effect s i t := by
  cases i with
  | cls => exact .of_eq h rfl .cls
  | ret =>
    obtain ⟨-, e⟩ | ⟨hs, h0, e⟩ | ⟨-, e⟩ := execRet_cases s
    · exact .of_eq h e (.raise rfl rfl)
    · exact .of_eq h e (.ret h0 hs)
    · cases e.symm.trans h
  | jp nnn => exact .of_eq h rfl (.jump (addrOperand_le_maxPc nnn))
  | call nnn =>
    obtain ⟨-, e⟩ | ⟨hs, e⟩ | ⟨-, e⟩ := execCall_cases nnn s
    · exact .of_eq h e (.raise rfl rfl)
    · exact .of_eq h e (.call nnn hs)
    · cases e.symm.trans h
  | seImm | sneImm | seReg | sneReg => exact .of_eq h rfl (.skip _)
  | ldImm x | addImm x | ldReg x | orReg x | andReg x | xorReg x | ldVxDt x =>
    exact .of_eq h rfl (.writeReg (x := x) _ (beq_self_eq_true x))
  | addReg x | subReg x | shr x | subnReg x | shl x =>
    exact .of_eq h rfl (.writeRegFlag (x := x) _ _ (beq_self_eq_true x) rfl)
  | ldI nnn => exact .of_eq h rfl (.ldI nnn)
  | jpV0 nnn => exact .of_eq h rfl (.jump (indexedTarget_le_maxPc nnn _))
  | rnd x nn => exact .of_eq h rfl (.rnd x nn _)
  | drw x y n =>
    obtain ⟨bad, e⟩ | e := execDrw_cases x y n s
    · exact .of_eq h e (.raise rfl rfl)
    · exact .of_eq h e (.drw x y n _)
  | skp x =>
    obtain ⟨_, e⟩ | ⟨-, e⟩ := execSkp_cases x s
    · exact .of_eq h e (.skip _)
    · exact .of_eq h e (.raise rfl rfl)
  | sknp x =>
    obtain ⟨_, e⟩ | ⟨-, e⟩ := execSknp_cases x s
    · exact .of_eq h e (.skip _)
    · exact .of_eq h e (.raise rfl rfl)
  | ldVxK x =>
    obtain ⟨k, -, e⟩ | ⟨-, e⟩ := execLdVxK_cases x s
    · exact .of_eq h e (.writeReg (x := x) _ (beq_self_eq_true x))
    · exact .of_eq h e (.wait x)
  | ldDtVx x => exact .of_eq h rfl (.ldDtVx x _)
  | ldStVx x => exact .of_eq h rfl (.ldStVx x _)
  | addI x => exact .of_eq h rfl (.addI x _ _)
  | ldF x => exact .of_eq h rfl (.ldF x _)
  | ldB x =>
    obtain ⟨bad, e⟩ | ⟨lo, hi, e⟩ := execLdB_cases x s
    · exact .of_eq h e (.raise rfl rfl)
    · exact .of_eq h e (.store _ ⟨x, .inl rfl⟩ lo hi)
  | ldMemVx x =>
    obtain ⟨bad, e⟩ | ⟨lo, hi, e⟩ := execLdMemVx_cases x s
    · exact .of_eq h e (.raise rfl rfl)
    · exact .of_eq h e (.store _ ⟨x, .inr rfl⟩ lo (by rwa [State.length_regsUpTo]))
  | ldVxMem x =>
    obtain ⟨bad, e⟩ | e := execLdVxMem_cases x s
    · exact .of_eq h e (.raise rfl rfl)
    · exact .of_eq h e (.load x _ (Memory.length_readBytes ..))

/-! ### The invariant -/

/-- Raising a fault at PC keeps the invariant (R273). -/
theorem State.Inv.raise {s : State} (hs : s.Inv) {r : FaultRecord} (hr : r.At s.pc) : (s.raise r).Inv where
  memWf := hs.memWf
  font := hs.font
  sp := hs.sp
  pc := hs.pc
  stack := hs.stack
  fault r' h := by
    obtain rfl := Option.some.inj h
    exact hr

/-- A tick keeps the invariant: it writes the timers alone (R280). -/
theorem State.Inv.timerTick {s : State} (hs : s.Inv) : s.timerTick.Inv :=
  ⟨hs.memWf, hs.font, hs.sp, hs.pc, hs.stack, hs.fault⟩

/-- A running state that differs from one with the invariant in PC, in range, and in what the invariant does not speak of. -/
theorem State.Inv.of_frame {s t : State} (hs : s.Inv) (hf : t.fault = none) (hpc : t.pc.toNat ≤ maxPc)
    (hmem : t.mem = s.mem) (hsp : t.sp = s.sp) (hstack : t.stack = s.stack) : t.Inv where
  memWf := hmem ▸ hs.memWf
  font := hmem ▸ hs.font
  sp := hsp ▸ hs.sp
  pc := hpc
  stack := hstack ▸ hs.stack
  fault r h := by cases hf.symm.trans h

/-- A block write above the font keeps the font (R63, decision D16). -/
theorem Memory.FontIntact.writeBytes {m : Memory} (hm : m.FontIntact) (bs : List Byte) {a : Nat} (ha : 0x050 ≤ a) :
    (m.writeBytes a bs).FontIntact := by
  intro x hx
  have below : x < a := Nat.lt_of_lt_of_le (Nat.lt_succ_of_le hx) ha
  rw [Memory.read_writeBytes_outside m bs (.inl below), hm x hx]

/-- A store in writable memory keeps the invariant. -/
theorem State.Inv.store {s : State} (hs : s.Inv) {a : Nat} {bs : List Byte} (lo : 0x050 ≤ a)
    (hi : a + bs.length ≤ 0x1000) : { s with mem := s.mem.writeBytes a bs }.Inv where
  memWf := Memory.wf_writeBytes hs.memWf bs hi
  font := hs.font.writeBytes bs lo
  sp := hs.sp
  pc := hs.pc
  stack := hs.stack
  fault := hs.fault

/-- A push of a return address that a CALL can give keeps the invariant (R28, R29). -/
theorem State.Inv.push {s : State} (hs : s.Inv) {w : Word} (hw : w.toNat ≤ maxReturn) (h : s.sp.toNat < 16) :
    (s.push w h).Inv where
  memWf := hs.memWf
  font := hs.font
  sp := by rw [State.toNat_sp_push]; omega
  pc := hs.pc
  stack k := by
    rw [State.stack_push]
    split
    · exact hw
    · exact hs.stack k
  fault := hs.fault

/-- A pop keeps the invariant (R28). -/
theorem State.Inv.pop {s : State} (hs : s.Inv) (h : s.sp ≠ 0#8) : s.pop.Inv where
  memWf := hs.memWf
  font := hs.font
  sp := by rw [State.toNat_sp_pop s h]; have := hs.sp; omega
  pc := hs.pc
  stack := hs.stack
  fault := hs.fault

/-- The entry that RET reads is a return address (R29). -/
theorem State.Inv.topOfStack_le {s : State} (hs : s.Inv) (h : s.sp.toNat ≤ 16) : (s.topOfStack h).toNat ≤ maxPc :=
  Nat.le_trans (hs.stack ⟨s.sp.toNat - 1, by omega⟩) (by decide)

/-- A default step or a skip from a fetched instruction does not wrap (R26). -/
theorem pc_add_le {p k : Word} (hp : p.toNat ≤ 0xFFE) (hk : k.toNat ≤ 4) : (p + k).toNat ≤ 0xFFE + k.toNat := by
  rw [BitVec.toNat_add]
  omega

/-- The default step from a fetched instruction stays in the range of a return address (R29). -/
theorem pc_add_two_le_maxReturn {p : Word} (hp : p.toNat ≤ 0xFFE) : (p + 2#16).toNat ≤ maxReturn :=
  pc_add_le hp (by decide)

theorem pc_add_two_le_maxPc {p : Word} (hp : p.toNat ≤ 0xFFE) : (p + 2#16).toNat ≤ maxPc :=
  Nat.le_trans (pc_add_two_le_maxReturn hp) (by decide)

/-- A skip from a fetched instruction stays in the range of PC (R26, R27). -/
theorem State.pc_skipIf_le {s : State} (hp : s.pc.toNat ≤ 0xFFE) (c : Bool) : (s.skipIf c).pc.toNat ≤ maxPc := by
  cases c with
  | true => exact Nat.le_trans (pc_add_le hp (by decide)) (by decide)
  | false => exact pc_add_two_le_maxPc hp

/-- Every instruction, fetched in a running state with the invariant, keeps the invariant. -/
theorem exec_keeps_inv {i : Instr} {s t : State} (hs : s.Inv) (hf : s.fault = none) (hp : s.pc.toNat ≤ 0xFFE)
    (h : exec i s = .next t) : t.Inv := by
  have next : (s.pc + 2#16).toNat ≤ maxPc := pc_add_two_le_maxPc hp
  cases exec_effect h with
  | raise _ hr => exact hs.raise hr
  | wait => exact hs
  | skip c => exact hs.of_frame hf (State.pc_skipIf_le hp c) rfl rfl rfl
  | jump hw => exact hs.of_frame hf hw rfl rfl rfl
  | ret h0 h16 => exact (hs.pop h0).of_frame hf (hs.topOfStack_le h16) rfl rfl rfl
  | call nnn h16 => exact (hs.push (pc_add_two_le_maxReturn hp) h16).of_frame hf (addrOperand_le_maxPc nnn) rfl rfl rfl
  | store bs _ lo hi => exact (hs.store lo hi).of_frame hf next rfl rfl rfl
  | load x bs => exact hs.of_frame (by simpa using hf) (by simpa using next) (by simp) (by simp) (by simp)
  | writeReg | writeRegFlag | cls | ldI | rnd | drw | ldDtVx | ldStVx | addI | ldF => exact hs.of_frame hf next rfl rfl rfl

/-- An unknown word keeps the invariant, as a no-op and as a fault (R99). -/
theorem execUnknown_keeps_inv {strict : Bool} {w : Word} {s t : State} (hs : s.Inv) (hf : s.fault = none)
    (hp : s.pc.toNat ≤ 0xFFE) (h : execUnknown strict w s = .next t) : t.Inv := by
  cases strict with
  | true =>
    obtain rfl := Host.Outcome.next.inj h
    exact hs.raise rfl
  | false =>
    obtain rfl := Host.Outcome.next.inj h
    exact hs.of_frame hf (pc_add_two_le_maxPc hp) rfl rfl rfl

/-- Every fetched word keeps the invariant before the tick. -/
theorem execWord_keeps_inv {strict : Bool} {w : Word} {s t : State} (hs : s.Inv) (hf : s.fault = none)
    (hp : s.pc.toNat ≤ 0xFFE) (h : execWord strict w s = .next t) : t.Inv := by
  cases hw : decodeWord w with
  | ok i => exact exec_keeps_inv hs hf hp (execWord_known s hw ▸ h)
  | error e => exact execUnknown_keeps_inv hs hf hp (execWord_unknown s hw ▸ h)

/-- Every cycle keeps the invariant. -/
theorem stepWith_keeps_inv {strict : Bool} {s t : State} (hs : s.Inv) (h : stepWith strict s = .next t) : t.Inv := by
  obtain ⟨hf, ⟨bad, -, rfl⟩ | ⟨w, u, hw, hu, ht⟩⟩ := stepWith_cases h
  · exact hs.raise rfl
  · have hInv : u.Inv := execWord_keeps_inv hs hf (State.pc_of_fetch hw) hu
    obtain ⟨-, rfl⟩ | ⟨-, rfl⟩ := ht
    · exact hInv.timerTick
    · exact hInv

/-- Settles O14: each effect of a fetched instruction keeps the invariant, and so do the fault record and the tick. -/
theorem stepKeepsTheInvariant : Obligations.StepKeepsTheInvariant :=
  ⟨fun _ _ hs h => stepWith_keeps_inv hs h, fun _ _ _ hs h => stepWith_keeps_inv hs h⟩

/-! ### The writers of each component -/

/-- Settles O54: of the effects, only those of 2nnn and 00EE have another SP, and only that of 2nnn another stack. -/
theorem onlyCallAndRetMoveTheStack : Obligations.OnlyCallAndRetMoveTheStack := by
  intro i s t h
  cases exec_effect h with
  | call nnn => exact ⟨fun hc => absurd rfl (hc nnn), fun hc => absurd rfl (hc nnn)⟩
  | ret => exact ⟨fun _ => rfl, fun _ hr => absurd rfl hr⟩
  | load => simp
  | raise | wait | skip | jump | writeReg | writeRegFlag | cls | ldI | rnd | drw | ldDtVx | ldStVx | addI | ldF | store =>
    exact ⟨fun _ => rfl, fun _ _ => rfl⟩

/-- Settles O55: each effect that writes one of these components belongs to an instruction named for it. -/
theorem writersOfTheSpecialState : Obligations.WritersOfTheSpecialState := by
  intro i s t h
  cases exec_effect h with
  | cls | drw | ldI | addI | ldF | ldDtVx | ldStVx | rnd => simp
  | load => simp
  | raise | wait | skip | jump | ret | call | writeReg | writeRegFlag | store =>
    exact ⟨fun _ _ => rfl, rfl, fun _ _ _ => rfl, fun _ => rfl, fun _ => rfl, fun _ => rfl⟩

/-- A write of V[x] changes no register but V[x]. -/
theorem State.eq_of_getV_setV_ne {s : State} {x z : Reg} {b : Byte} (h : (s.setV x b).getV z ≠ s.getV z) : z = x :=
  by_contra fun hz => h (State.getV_setV_other s b hz)

/-- A load of x + 1 bytes from V[0] on changes no register above V[x] (R240). -/
theorem State.le_of_getV_loadRegs_ne {s : State} {x z : Reg} {bs : List Byte} (hbs : bs.length = x.val + 1)
    (h : (s.loadRegs 0 bs).getV z ≠ s.getV z) : z ≤ x := by
  obtain ⟨-, above, -⟩ := s.loadRegs_spec bs 0 (by omega)
  by_contra hz
  rw [Fin.not_le, Fin.lt_def] at hz
  exact h (above z (by omega))

/-- Settles O57: the effects that write registers change V[x] of the instruction, V[0..x] for Fx65, or VF as the flag. -/
theorem writersOfTheRegisters : Obligations.WritersOfTheRegisters := by
  intro i s t z h changed
  cases exec_effect h with
  | writeReg b hx => exact .inl (State.eq_of_getV_setV_ne changed ▸ hx)
  | writeRegFlag b f hx hf =>
    by_cases hz : z = VF
    · exact .inr ⟨hz, hf⟩
    · have result : (s.setV _ b).getV z ≠ s.getV z := State.getV_setV_other _ f hz ▸ changed
      exact .inl (State.eq_of_getV_setV_ne result ▸ hx)
  | rnd x nn b => exact .inl (beq_iff_eq.2 (State.eq_of_getV_setV_ne (s := s.afterDraw) changed))
  | load x bs hbs => exact .inl (decide_eq_true (State.le_of_getV_loadRegs_ne hbs changed))
  | drw x y n rows => exact .inr ⟨by_contra fun hz => changed (s.getV_drawSprite_other x y z rows hz), rfl⟩
  | addI x w f => exact .inr ⟨State.eq_of_getV_setV_ne (s := { s with i := w }) changed, rfl⟩
  | raise | wait | skip | jump | ret | call | cls | ldI | ldDtVx | ldStVx | ldF | store => exact absurd rfl changed

/-! ### Reset, and the reserved values of SP -/

/-- Settles O15: the memory at reset lists no difference from construction, and no fault is recorded. -/
theorem resetHasTheInvariant : Obligations.ResetHasTheInvariant where
  memWf := Memory.wf_reset
  font _ _ := rfl
  sp := by decide
  pc := by decide
  stack := by decide
  fault _ h := by cases h

/-- Settles O17: the reset record field by field, pixels and keys through their accessors. -/
theorem resetValuesOfTheSource : Obligations.ResetValuesOfTheSource :=
  ⟨rfl, rfl, rfl, rfl, Framebuffer.pixel_blank, by decide⟩

/-- Memory above the font reads 0 at construction (R64, decision D5). -/
theorem initialByte_above_font {a : Nat} (ha : 0x050 ≤ a) : initialByte a = 0#8 :=
  List.getD_eq_default _ _ ha

/-- Settles O18: memory at reset reads as at construction, so above the font as 0 and in it as the 16 glyphs. -/
theorem resetValuesChosen : Obligations.ResetValuesChosen :=
  ⟨by decide, rfl, by decide, rfl, fun _ => initialByte_above_font,
    rfl, rfl, rfl, rfl, rfl, rfl, rfl, rfl, rfl, rfl, rfl, rfl, rfl, rfl, rfl, rfl⟩

/-- Settles O24: with SP above 16 neither the fault nor the stack move of RET and CALL is left. -/
theorem reservedStackPointerStops : Obligations.ReservedStackPointerStops := by
  intro s hs
  have reserved (b : Byte) (hb : b.toNat ≤ 16) : s.sp ≠ b := fun e => by rw [e] at hs; omega
  refine ⟨?_, fun nnn => ?_⟩
  · obtain ⟨h, -⟩ | ⟨h, -⟩ | ⟨-, e⟩ := execRet_cases s
    · exact absurd h (reserved _ (by decide))
    · omega
    · exact e
  · obtain ⟨h, -⟩ | ⟨h, -⟩ | ⟨-, e⟩ := execCall_cases nnn s
    · exact absurd h (reserved _ (by decide))
    · omega
    · exact e

end Sys2Proof.Machine

namespace Sys2Proof.Machine

/-! ## Memory (20_memory.md): who writes it, and the fetch after a store -/

/-! ### The writers of memory -/

/-- Settles O56: of the effects, only that of a store has another memory, and it starts above the font. -/
theorem writersOfMemory : Obligations.WritersOfMemory := by
  intro i s t h
  cases exec_effect h with
  | store bs writer lo _ =>
    refine ⟨fun notB notMemVx => ?_, fun a ha => ?_⟩
    · obtain ⟨x, rfl | rfl⟩ := writer
      · exact absurd rfl (notB x)
      · exact absurd rfl (notMemVx x)
    · have below : a < s.i.toNat := Nat.lt_of_le_of_lt ha lo
      exact Memory.read_writeBytes_outside s.mem bs (.inl below)
  | load => simp
  | raise | wait | skip | jump | ret | call | writeReg | writeRegFlag | cls | ldI | rnd | drw | ldDtVx | ldStVx | addI | ldF =>
    exact ⟨fun _ _ _ => rfl, fun _ _ => rfl⟩

/-! ### The stores, in writable memory -/

/-- Fx55 in writable memory stores V[0..x] from I and advances (R239). -/
theorem exec_ldMemVx_inside (s : State) (x : Reg) (lo : 0x050 ≤ s.i.toNat) (hi : s.i.toNat + x.val ≤ 0xFFF) :
    exec (.ldMemVx x) s = .next { s with mem := s.mem.writeBytes s.i.toNat (s.regsUpTo x) }.advance := by
  have fits : s.i.toNat + (s.regsUpTo x).length ≤ 0x1000 := by rw [State.length_regsUpTo]; omega
  rw [exec, execLdMemVx, s.writeBlock_inside lo fits]

@[simp] theorem length_bcdDigits (b : Byte) : (bcdDigits b).length = 3 := rfl

/-- Fx33 in writable memory stores the three digits of V[x] from I and advances (R238). -/
theorem exec_ldB_inside (s : State) (x : Reg) (lo : 0x050 ≤ s.i.toNat) (hi : s.i.toNat ≤ 0xFFD) :
    exec (.ldB x) s = .next { s with mem := s.mem.writeBytes s.i.toNat (bcdDigits (s.getV x)) }.advance := by
  have fits : s.i.toNat + (bcdDigits (s.getV x)).length ≤ 0x1000 := by rw [length_bcdDigits]; omega
  rw [exec, execLdB, s.writeBlock_inside lo fits]

/-- Byte k of the digits is the decimal digit of weight 10 ^ (2 - k) (R238). -/
theorem toNat_getElem_bcdDigits (b : Byte) (k : Fin 3) : (bcdDigits b)[k].toNat = b.toNat / 10 ^ (2 - k.val) % 10 := by
  have hb : b.toNat < 256 := b.isLt
  match k with
  | 0 =>
    change b.toNat / 100 % 256 = b.toNat / 100 % 10
    omega
  | 1 =>
    change b.toNat / 10 % 10 % 256 = b.toNat / 10 % 10
    omega
  | 2 =>
    change b.toNat % 10 % 256 = b.toNat / 1 % 10
    omega

/-- The byte at p = a + k after V[0..x] is stored from a is V[k], for k up to x (R239). -/
theorem Memory.read_writeBytes_regsUpTo (m : Memory) (s : State) {x k : Reg} {a p : Nat} (hk : k ≤ x) (hp : a + k.val = p) :
    (m.writeBytes a (s.regsUpTo x)).read p = s.getV k := by
  have inside : k.val < (s.regsUpTo x).length := by rw [State.length_regsUpTo]; exact Nat.lt_succ_of_le hk
  rw [← hp, Memory.read_writeBytes_inside m _ a k.val inside, State.getElem_regsUpTo]

/-- The byte at p = a + k after the digits of b are stored from a is digit k (R238). -/
theorem Memory.toNat_read_writeBytes_bcdDigits (m : Memory) (b : Byte) {k : Fin 3} {a p : Nat} (hp : a + k.val = p) :
    ((m.writeBytes a (bcdDigits b)).read p).toNat = b.toNat / 10 ^ (2 - k.val) % 10 := by
  rw [← hp, Memory.read_writeBytes_inside m (bcdDigits b) a k.val k.isLt]
  exact toNat_getElem_bcdDigits b k

/-! ### The next fetch (R74, decision D23) -/

/-- The next fetch reads memory as it is now, at PC + 2 and PC + 3. -/
theorem State.fetch_advance (s : State) (hpc : s.pc.toNat ≤ 0xFFC) :
    s.advance.fetch = .ok (assemble (s.mem.read (s.pc.toNat + 2)) (s.mem.read (s.pc.toNat + 3))) := by
  have next : s.advance.pc.toNat = s.pc.toNat + 2 := by
    rw [State.advance_pc, BitVec.toNat_add, BitVec.toNat_ofNat]
    omega
  rw [State.fetch_inside s.advance (by omega), next, State.advance_mem]

/-- Settles O53: the fetch reads the memory that the store left, inside the block and outside it. -/
theorem nextFetchSeesTheStore : Obligations.NextFetchSeesTheStore := by
  refine ⟨fun s x hpc lo hi => ?_, fun s x hpc lo hi => ?_⟩
  · have outside {p : Nat} (hp : p < s.i.toNat ∨ s.i.toNat + x.val < p) :
        (s.mem.writeBytes s.i.toNat (s.regsUpTo x)).read p = s.mem.read p :=
      Memory.read_writeBytes_outside _ _ (by rw [State.length_regsUpTo]; omega)
    exact ⟨_, _, _, exec_ldMemVx_inside s x lo hi, rfl, State.fetch_advance _ hpc,
      fun _ => Memory.read_writeBytes_regsUpTo s.mem s, fun _ => Memory.read_writeBytes_regsUpTo s.mem s, outside, outside⟩
  · have outside {p : Nat} (hp : p < s.i.toNat ∨ s.i.toNat + 2 < p) :
        (s.mem.writeBytes s.i.toNat (bcdDigits (s.getV x))).read p = s.mem.read p :=
      Memory.read_writeBytes_outside _ _ (by rw [length_bcdDigits]; omega)
    exact ⟨_, _, _, exec_ldB_inside s x lo hi, rfl, State.fetch_advance _ hpc,
      fun _ => Memory.toNat_read_writeBytes_bcdDigits s.mem _, fun _ => Memory.toNat_read_writeBytes_bcdDigits s.mem _,
      outside, outside⟩

end Sys2Proof.Machine

namespace Sys2Proof

/-! ## Encoding (30_encoding.md): the decoder against the encoder, the opcode map and the list of unknown words

### Masks as formats (rules R93, R97) -/

/-- Mask 0xF0FF keeps op and nn. -/
theorem and_F0FF_packXK (w : Word) : w &&& 0xF0FF#16 = packXK (opOf w) 0 (nnOf w) := by
  apply BitVec.eq_of_toNat_eq
  rw [and_F0FF, toNat_packXYN, toNat_packXK, val_yOf, toNat_nOf, toNat_nnOf]
  omega

/-- Dropping the ignored n leaves op, x and y. -/
theorem and_not_000F (w : Word) : w &&& ~~~0x000F#16 = packXYN (opOf w) (xOf w) (yOf w) 0#4 := and_mask w true true true false

/-- An instruction with no ignored bits drops none. -/
theorem and_not_0000 (w : Word) : w &&& ~~~0x0000#16 = w := BitVec.and_allOnes

/-! ### What the decoder answers (rule R95) -/

/-- w is a word of i: it has the match of i's row under its mask (R95), and i's operands are the fields of w (R92). -/
structure IsWordOf (w : Word) (i : Instr) : Prop where
  row : w &&& (rowOf i).2 = (rowOf i).1
  fields : encode i = w &&& ~~~ignoredMask i

/-- An answer to w that the opcode map allows: an instruction that w is a word of, or the rejection of w. -/
def Answers (w : Word) : Except DecodeReject Instr → Prop
  | .ok i => IsWordOf w i
  | .error e => e = .unknownWord w

section Formats

variable {w : Word} {op n : Nibble} {nn : Byte}

/-- A row that op selects. -/
theorem row_of_op (hop : opOf w = op) : w &&& 0xF000#16 = packXYN op 0 0 0#4 := hop ▸ and_F000 w

/-- A row that op and n select. -/
theorem row_of_op_n (hop : opOf w = op) (hn : nOf w = n) : w &&& 0xF00F#16 = packXYN op 0 0 n := hop ▸ hn ▸ and_F00F w

/-- A row that op and nn select. -/
theorem row_of_op_nn (hop : opOf w = op) (hnn : nnOf w = nn) : w &&& 0xF0FF#16 = packXK op 0 nn :=
  hop ▸ hnn ▸ and_F0FF_packXK w

/-! Each format's fields restore the word but for its ignored bits (R93). -/

theorem fields_A (hop : opOf w = op) : packA op (nnnOf w) = w &&& ~~~0x0000#16 := by
  rw [and_not_0000, ← hop, packA_fields]

theorem fields_XK (hop : opOf w = op) (hnn : nnOf w = nn) : packXK op (xOf w) nn = w &&& ~~~0x0000#16 := by
  rw [and_not_0000, ← hop, ← hnn, packXK_fields]

theorem fields_XYN (hop : opOf w = op) (hn : nOf w = n) : packXYN op (xOf w) (yOf w) n = w &&& ~~~0x0000#16 := by
  rw [and_not_0000, ← hop, ← hn, packXYN_fields]

theorem fields_XY (hop : opOf w = op) : packXYN op (xOf w) (yOf w) 0#4 = w &&& ~~~0x000F#16 := by
  rw [and_not_000F, hop]

end Formats

/-- Family 0 drops x: what is left of the word is its match, which is the encoding (R97). -/
theorem decodeFamily0_answers {w : Word} (hop : opOf w = 0x0#4) : Answers w (decodeFamily0 w) := by
  unfold decodeFamily0
  split
  · next hnn => exact ⟨row_of_op_nn hop hnn, (row_of_op_nn hop hnn).symm⟩
  · next hnn => exact ⟨row_of_op_nn hop hnn, (row_of_op_nn hop hnn).symm⟩
  · rfl

theorem decodeFamily8_answers {w : Word} (hop : opOf w = 0x8#4) : Answers w (decodeFamily8 w) := by
  unfold decodeFamily8
  split
  case h_10 => rfl
  all_goals
    next hn => exact ⟨row_of_op_n hop hn, fields_XYN hop hn⟩

theorem decodeFamilyE_answers {w : Word} (hop : opOf w = 0xE#4) : Answers w (decodeFamilyE w) := by
  unfold decodeFamilyE
  split
  case h_3 => rfl
  all_goals
    next hnn => exact ⟨row_of_op_nn hop hnn, fields_XK hop hnn⟩

theorem decodeFamilyF_answers {w : Word} (hop : opOf w = 0xF#4) : Answers w (decodeFamilyF w) := by
  unfold decodeFamilyF
  split
  case h_10 => rfl
  all_goals
    next hnn => exact ⟨row_of_op_nn hop hnn, fields_XK hop hnn⟩

/-- Every answer of the decoder is one that the opcode map allows. -/
theorem decodeWord_answers (w : Word) : Answers w (decodeWord w) := by
  -- Case h_(k+1) is the family with op = k, grouped by format (R93); h_17 is the arm for no op.
  unfold decodeWord
  split
  case h_1 hop => exact decodeFamily0_answers hop
  case h_9 hop => exact decodeFamily8_answers hop
  case h_15 hop => exact decodeFamilyE_answers hop
  case h_16 hop => exact decodeFamilyF_answers hop
  case h_2 hop | h_3 hop | h_11 hop | h_12 hop => exact ⟨row_of_op hop, fields_A hop⟩
  case h_4 hop | h_5 hop | h_7 hop | h_8 hop | h_13 hop => exact ⟨row_of_op hop, fields_XK hop rfl⟩
  case h_6 hop | h_10 hop => exact ⟨row_of_op hop, fields_XY hop⟩
  case h_14 hop => exact ⟨row_of_op hop, fields_XYN hop rfl⟩
  case h_17 => rfl

/-- The decoder gives only instructions that w is a word of. -/
theorem isWordOf_of_decodeWord {w : Word} {i : Instr} (h : decodeWord w = .ok i) : IsWordOf w i := by
  have := decodeWord_answers w
  rwa [h] at this

/-- A word with no instruction is rejected as unknown. -/
theorem decodeWord_eq_unknown {w : Word} (h : ∀ i, decodeWord w ≠ .ok i) : decodeWord w = .error (.unknownWord w) := by
  have answers := decodeWord_answers w
  cases e : decodeWord w with
  | ok i => exact absurd e (h i)
  | error r =>
    rw [e] at answers
    exact congrArg Except.error answers

/-! ### Decode of encode -/

/-- The fields of a packed word select the row and give its operands back (R93, R95). -/
theorem decodeWord_encode (i : Instr) : decodeWord (encode i) = .ok i := by
  cases i with
  | cls | ret => simp [encode, decodeWord, decodeFamily0]
  | ldReg | orReg | andReg | xorReg | addReg | subReg | shr | subnReg | shl => simp [encode, decodeWord, decodeFamily8]
  | skp | sknp => simp [encode, decodeWord, decodeFamilyE]
  | ldVxDt | ldVxK | ldDtVx | ldStVx | addI | ldF | ldB | ldMemVx | ldVxMem => simp [encode, decodeWord, decodeFamilyF]
  | jp | call | seImm | sneImm | seReg | ldImm | addImm | sneReg | ldI | jpV0 | rnd | drw => simp [encode, decodeWord]

theorem encode_injective : Function.Injective encode := fun i j h =>
  Except.ok.inj <| by rw [← decodeWord_encode i, ← decodeWord_encode j, h]

/-- The bytes of an instruction decode as its word, and the rest is given back (R90, R91). -/
theorem decode_encodeBytes_append (i : Instr) (rest : List Byte) :
    decode (encodeBytes i ++ rest) = .ok (i, rest) := by
  simp [decode, encodeBytes, decodeWord_encode]

/-- Settles O2: the word decodes to its instruction, and its two bytes, put together, are the word. -/
theorem decodeAfterEncode : Obligations.DecodeAfterEncode := fun i =>
  ⟨decodeWord_encode i, decode_encodeBytes_append i⟩

/-! ### The opcode map -/

/-- A word with a row's match under its mask is an instruction of that row. -/
theorem decodeWord_of_row {w : Word} {i : Instr} (h : w &&& (rowOf i).2 = (rowOf i).1) :
    ∃ j, decodeWord w = .ok j ∧ mnemonicOf j = mnemonicOf i ∧ ignoredMask j = ignoredMask i := by
  cases i with
  | cls => exact ⟨_, decodeWord_cls h, rfl, rfl⟩
  | ret => exact ⟨_, decodeWord_ret h, rfl, rfl⟩
  | jp => exact ⟨_, decodeWord_jp h, rfl, rfl⟩
  | call => exact ⟨_, decodeWord_call h, rfl, rfl⟩
  | seImm => exact ⟨_, decodeWord_seImm h, rfl, rfl⟩
  | sneImm => exact ⟨_, decodeWord_sneImm h, rfl, rfl⟩
  | seReg => exact ⟨_, decodeWord_seReg h, rfl, rfl⟩
  | ldImm => exact ⟨_, decodeWord_ldImm h, rfl, rfl⟩
  | addImm => exact ⟨_, decodeWord_addImm h, rfl, rfl⟩
  | ldReg => exact ⟨_, decodeWord_ldReg h, rfl, rfl⟩
  | orReg => exact ⟨_, decodeWord_orReg h, rfl, rfl⟩
  | andReg => exact ⟨_, decodeWord_andReg h, rfl, rfl⟩
  | xorReg => exact ⟨_, decodeWord_xorReg h, rfl, rfl⟩
  | addReg => exact ⟨_, decodeWord_addReg h, rfl, rfl⟩
  | subReg => exact ⟨_, decodeWord_subReg h, rfl, rfl⟩
  | shr => exact ⟨_, decodeWord_shr h, rfl, rfl⟩
  | subnReg => exact ⟨_, decodeWord_subnReg h, rfl, rfl⟩
  | shl => exact ⟨_, decodeWord_shl h, rfl, rfl⟩
  | sneReg => exact ⟨_, decodeWord_sneReg h, rfl, rfl⟩
  | ldI => exact ⟨_, decodeWord_ldI h, rfl, rfl⟩
  | jpV0 => exact ⟨_, decodeWord_jpV0 h, rfl, rfl⟩
  | rnd => exact ⟨_, decodeWord_rnd h, rfl, rfl⟩
  | drw => exact ⟨_, decodeWord_drw h, rfl, rfl⟩
  | skp => exact ⟨_, decodeWord_skp h, rfl, rfl⟩
  | sknp => exact ⟨_, decodeWord_sknp h, rfl, rfl⟩
  | ldVxDt => exact ⟨_, decodeWord_ldVxDt h, rfl, rfl⟩
  | ldVxK => exact ⟨_, decodeWord_ldVxK h, rfl, rfl⟩
  | ldDtVx => exact ⟨_, decodeWord_ldDtVx h, rfl, rfl⟩
  | ldStVx => exact ⟨_, decodeWord_ldStVx h, rfl, rfl⟩
  | addI => exact ⟨_, decodeWord_addI h, rfl, rfl⟩
  | ldF => exact ⟨_, decodeWord_ldF h, rfl, rfl⟩
  | ldB => exact ⟨_, decodeWord_ldB h, rfl, rfl⟩
  | ldMemVx => exact ⟨_, decodeWord_ldMemVx h, rfl, rfl⟩
  | ldVxMem => exact ⟨_, decodeWord_ldVxMem h, rfl, rfl⟩

/-- One instruction of each row, in the table's order (R96). -/
def oneOfEachRow : List Instr :=
  [.cls, .ret, .jp 0, .call 0, .seImm 0 0, .sneImm 0 0, .seReg 0 0, .ldImm 0 0, .addImm 0 0, .ldReg 0 0, .orReg 0 0,
    .andReg 0 0, .xorReg 0 0, .addReg 0 0, .subReg 0 0, .shr 0 0, .subnReg 0 0, .shl 0 0, .sneReg 0 0, .ldI 0, .jpV0 0,
    .rnd 0 0, .drw 0 0 0, .skp 0, .sknp 0, .ldVxDt 0, .ldVxK 0, .ldDtVx 0, .ldStVx 0, .addI 0, .ldF 0, .ldB 0,
    .ldMemVx 0, .ldVxMem 0]

/-- The row of a mnemonic, looked up in the table. -/
def rowNamed (name : String) : Option (Word × Word) :=
  (oneOfEachRow.find? fun i => mnemonicOf i == name).map rowOf

theorem rowNamed_mnemonicOf (i : Instr) : rowNamed (mnemonicOf i) = some (rowOf i) := by
  cases i <;> rfl

/-- No two rows share a mnemonic. -/
theorem rowOf_eq_of_mnemonicOf_eq {i j : Instr} (h : mnemonicOf j = mnemonicOf i) : rowOf j = rowOf i :=
  Option.some.inj <| by rw [← rowNamed_mnemonicOf j, h, rowNamed_mnemonicOf i]

/-- Settles O3: a decoded instruction has the word in its row, and a word in a row decodes to an instruction of it. -/
theorem decodeFollowsTheOpcodeMap : Obligations.DecodeFollowsTheOpcodeMap := by
  refine ⟨fun w i => ⟨?_, fun h => ?_⟩, fun w noRow => ?_⟩
  · rintro ⟨j, hj, sameName⟩
    rw [← rowOf_eq_of_mnemonicOf_eq sameName]
    exact (isWordOf_of_decodeWord hj).row
  · obtain ⟨j, hj, sameName, -⟩ := decodeWord_of_row h
    exact ⟨j, hj, sameName⟩
  · exact decodeWord_eq_unknown fun i hi => noRow i (isWordOf_of_decodeWord hi).row

/-! ### The ignored bits (rule R97) -/

/-- A row's mask selects no ignored bit. -/
theorem not_ignoredMask_and_mask (i : Instr) : ~~~ignoredMask i &&& (rowOf i).2 = (rowOf i).2 := by
  cases i <;> (dsimp only [ignoredMask, rowOf]; decide)

/-- Words that differ in ignored bits alone match the same row. -/
theorem row_of_and_not_ignoredMask_eq {w w' : Word} {i : Instr} (row : w &&& (rowOf i).2 = (rowOf i).1)
    (h : w' &&& ~~~ignoredMask i = w &&& ~~~ignoredMask i) : w' &&& (rowOf i).2 = (rowOf i).1 := by
  rw [← not_ignoredMask_and_mask i, ← BitVec.and_assoc, h, BitVec.and_assoc, not_ignoredMask_and_mask i, row]

/-- Settles O5: a word equal but for ignored bits is in the same row, so decodes to an instruction of equal encoding. -/
theorem decodeReadsEveryFieldBit : Obligations.DecodeReadsEveryFieldBit := by
  intro w i hi
  obtain ⟨row, fields⟩ := isWordOf_of_decodeWord hi
  refine ⟨fields, fun w' h => ?_⟩
  obtain ⟨j, hj, -, sameBits⟩ := decodeWord_of_row (row_of_and_not_ignoredMask_eq row h)
  have sameWord : encode j = encode i := by rw [(isWordOf_of_decodeWord hj).fields, sameBits, h, fields]
  rw [hj, encode_injective sameWord]

/-! ### The list of unknown words (rule R98) -/

/-- The values of n that family 8 does not list as unknown. -/
theorem not_mem_unknown_n_iff : ∀ n : Nibble, n.toNat ∉ [0x8, 0x9, 0xA, 0xB, 0xC, 0xD, 0xF] ↔
    n ∈ [0x0#4, 0x1#4, 0x2#4, 0x3#4, 0x4#4, 0x5#4, 0x6#4, 0x7#4, 0xE#4] := by decide

/-- The list of unknown words in terms of the fields of the word. -/
theorem wordKnown_eq_of_fields (w : Word) : wordKnown w =
    (if opOf w = 0x0#4 then decide (nnOf w ∈ [0xE0#8, 0xEE#8])
    else if opOf w = 0x8#4 then decide (nOf w ∈ [0x0#4, 0x1#4, 0x2#4, 0x3#4, 0x4#4, 0x5#4, 0x6#4, 0x7#4, 0xE#4])
    else if opOf w = 0xE#4 then decide (nnOf w ∈ [0x9E#8, 0xA1#8])
    else if opOf w = 0xF#4 then
      decide (nnOf w ∈ [0x07#8, 0x0A#8, 0x15#8, 0x18#8, 0x1E#8, 0x29#8, 0x33#8, 0x55#8, 0x65#8])
    else true) := by
  have hop : w.toNat / 4096 % 16 = w.toNat / 4096 := Nat.mod_eq_of_lt (by omega)
  simp only [Laws.wordKnown_eq, ← not_mem_unknown_n_iff, toNat_nOf]
  simp [← BitVec.toNat_inj, toNat_opOf, toNat_nnOf, hop]

/-! Each family that selects by nn or n rejects exactly the values that its list leaves out. -/

theorem decodeFamily0_unknown_iff {w : Word} (hop : opOf w = 0x0#4) :
    decodeFamily0 w = .error (.unknownWord w) ↔ wordKnown w = false := by
  rw [wordKnown_eq_of_fields]
  unfold decodeFamily0
  split <;> simp_all

theorem decodeFamily8_unknown_iff {w : Word} (hop : opOf w = 0x8#4) :
    decodeFamily8 w = .error (.unknownWord w) ↔ wordKnown w = false := by
  rw [wordKnown_eq_of_fields]
  unfold decodeFamily8
  split <;> simp_all

theorem decodeFamilyE_unknown_iff {w : Word} (hop : opOf w = 0xE#4) :
    decodeFamilyE w = .error (.unknownWord w) ↔ wordKnown w = false := by
  rw [wordKnown_eq_of_fields]
  unfold decodeFamilyE
  split <;> simp_all

theorem decodeFamilyF_unknown_iff {w : Word} (hop : opOf w = 0xF#4) :
    decodeFamilyF w = .error (.unknownWord w) ↔ wordKnown w = false := by
  rw [wordKnown_eq_of_fields]
  unfold decodeFamilyF
  split <;> simp_all

/-- Settles O4: family by family, the words that the decoder rejects are those of the list. -/
theorem unknownWordsAreTheListedOnes : Obligations.UnknownWordsAreTheListedOnes := by
  intro w
  unfold decodeWord
  split
  case h_1 hop => exact decodeFamily0_unknown_iff hop
  case h_9 hop => exact decodeFamily8_unknown_iff hop
  case h_15 hop => exact decodeFamilyE_unknown_iff hop
  case h_16 hop => exact decodeFamilyF_unknown_iff hop
  case h_17 =>
    -- No op is left.
    simp only [imp_false, ← BitVec.toNat_inj, BitVec.toNat_ofNat] at *
    omega
  all_goals
    next hop => simp [wordKnown_eq_of_fields, hop]

/-! ### Words written out from the encodings -/

/-- Settles O1: each word has its row's match under the mask of the row, and its fields are the operands. -/
theorem specWordsDecode : Obligations.SpecWordsDecode :=
  ⟨decodeWord_cls rfl, decodeWord_jp rfl, decodeWord_call rfl, decodeWord_seImm rfl, decodeWord_sneImm rfl,
    decodeWord_seReg rfl, decodeWord_ldImm rfl, decodeWord_addImm rfl, decodeWord_addReg rfl, decodeWord_sneReg rfl,
    decodeWord_ldI rfl, decodeWord_jpV0 rfl, decodeWord_rnd rfl, decodeWord_drw rfl, decodeWord_sknp rfl,
    decodeWord_ldVxMem rfl⟩

end Sys2Proof

namespace Sys2Proof.Machine

/-! ## The cycle (30_encoding.md rules R91, R99, R104, R106) -/

/-- Every instruction answers a next state, or the reserved stop for SP above 16 (R33); none is refused. -/
theorem exec_cases (i : Instr) (s : State) :
    (∃ t, exec i s = .next t) ∨ (16 < s.sp.toNat ∧ exec i s = .fault .reservedStackPointer) := by
  cases i with
  | ret =>
    obtain ⟨-, e⟩ | ⟨_, -, e⟩ | reserved := execRet_cases s
    · exact .inl ⟨_, e⟩
    · exact .inl ⟨_, e⟩
    · exact .inr reserved
  | call nnn =>
    obtain ⟨-, e⟩ | ⟨_, e⟩ | reserved := execCall_cases nnn s
    · exact .inl ⟨_, e⟩
    · exact .inl ⟨_, e⟩
    · exact .inr reserved
  | skp x => obtain ⟨_, e⟩ | ⟨-, e⟩ := execSkp_cases x s <;> exact .inl ⟨_, e⟩
  | sknp x => obtain ⟨_, e⟩ | ⟨-, e⟩ := execSknp_cases x s <;> exact .inl ⟨_, e⟩
  | ldVxK x => obtain ⟨_, -, e⟩ | ⟨-, e⟩ := execLdVxK_cases x s <;> exact .inl ⟨_, e⟩
  | drw x y n => obtain ⟨_, e⟩ | e := execDrw_cases x y n s <;> exact .inl ⟨_, e⟩
  | ldB x => obtain ⟨_, e⟩ | ⟨-, -, e⟩ := execLdB_cases x s <;> exact .inl ⟨_, e⟩
  | ldMemVx x => obtain ⟨_, e⟩ | ⟨-, -, e⟩ := execLdMemVx_cases x s <;> exact .inl ⟨_, e⟩
  | ldVxMem x => obtain ⟨_, e⟩ | e := execLdVxMem_cases x s <;> exact .inl ⟨_, e⟩
  | cls | jp | seImm | sneImm | seReg | ldImm | addImm | ldReg | orReg | andReg | xorReg | addReg | subReg | shr | subnReg
  | shl | sneReg | ldI | jpV0 | rnd | ldVxDt | ldDtVx | ldStVx | addI | ldF => exact .inl ⟨_, rfl⟩

theorem exec_ne_refused (i : Instr) (s : State) (r : Refusal) : exec i s ≠ .refused r := by
  obtain ⟨t, e⟩ | ⟨-, e⟩ := exec_cases i s <;> simp [e]

/-- With SP legal, every instruction answers a next state (R106). -/
theorem exec_next_of_sp_le (i : Instr) {s : State} (hs : s.sp.toNat ≤ 16) : ∃ t, exec i s = .next t := by
  obtain next | ⟨reserved, -⟩ := exec_cases i s
  · exact next
  · omega

/-- With SP legal, every word answers a next state before the tick. -/
theorem execWord_next_of_sp_le (strict : Bool) (w : Word) {s : State} (hs : s.sp.toNat ≤ 16) :
    ∃ t, execWord strict w s = .next t := by
  cases hw : decodeWord w with
  | ok i =>
    rw [execWord_known s hw]
    exact exec_next_of_sp_le i hs
  | error e =>
    rw [execWord_unknown s hw]
    cases strict <;> exact ⟨_, rfl⟩

theorem endCycle_of_running {t : State} (ht : t.fault = none) : endCycle (.next t) = .next t.timerTick := if_pos ht

theorem endCycle_of_raised {t : State} (ht : t.fault ≠ none) : endCycle (.next t) = .next t := if_neg ht

/-- A running machine whose fetch fails raises the fault at the address out of range (R272). -/
theorem stepWith_fetch_error {strict : Bool} {s : State} {bad : Nat} (running : s.fault = none)
    (hw : s.fetch = .error bad) : stepWith strict s = raisedMem s bad := by
  simp [stepWith, running, hw]

/-- Settles O13: a fetch that fails raises, and a fetched word answers a next state, raised or ticked. -/
theorem runningMachineAlwaysSteps : Obligations.RunningMachineAlwaysSteps := by
  intro strict s running hs
  cases hw : s.fetch with
  | error bad => exact ⟨_, stepWith_fetch_error running hw⟩
  | ok w =>
    obtain ⟨t, ht⟩ := execWord_next_of_sp_le strict w hs
    rw [stepWith_running running hw, ht]
    by_cases ht : t.fault = none
    · exact ⟨_, endCycle_of_running ht⟩
    · exact ⟨_, endCycle_of_raised ht⟩

/-- Settles O6: the three outcomes of a fetch, by where PC is. -/
theorem fetchIsBigEndianAndDoesNotWrap : Obligations.FetchIsBigEndianAndDoesNotWrap := fun s =>
  ⟨fun h => ⟨_, s.fetch_inside h, toNat_assemble ..⟩, s.fetch_last, s.fetch_above⟩

/-- A running machine whose next word decodes executes that instruction, strict or not (R104). -/
theorem stepWith_known {s : State} {w : Word} {i : Instr} (running : s.fault = none) (hw : s.fetch = .ok w)
    (hi : decodeWord w = .ok i) (strict : Bool) : stepWith strict s = endCycle (exec i s) := by
  rw [stepWith_running running hw, execWord_known s hi]

/-- Settles O7: the step is the end of the cycle applied to what exec answers. -/
theorem stepRunsTheDecodedInstruction : Obligations.StepRunsTheDecodedInstruction := by
  intro strict s i running hpc hi
  have known := stepWith_known running (s.fetch_inside hpc) hi
  refine ⟨(known _).trans (known strict).symm, fun t ht h => ?_, fun t ht h => ?_, fun f hf => ?_, exec_ne_refused i s⟩
  · rw [known, ht, endCycle_of_running h, State.timerTick]
  · rw [known, ht, endCycle_of_raised h]
  · rw [known, hf, endCycle]

/-- Settles O8: the step is the end of the cycle after the no-op, or after the fault raised. -/
theorem unknownWordStep : Obligations.UnknownWordStep := by
  intro s w running hw unknown
  have step (strict : Bool) : stepWith strict s = endCycle (execUnknown strict w s) := by
    rw [stepWith_running running hw, execWord_unknown s unknown]
  refine ⟨(step false).trans ?_, (step true).trans ?_⟩
  · exact endCycle_of_running running
  · exact endCycle_of_raised (Option.some_ne_none _)

end Sys2Proof.Machine

namespace Sys2Proof.Machine

/-! ## Families 0x0 to 0x2 (40_family0_2.md): clear, return, jump and call

### What RET and CALL answer, by SP -/

/-- With no return address on the stack, RET raises (R131). -/
theorem exec_ret_empty {s : State} (empty : s.sp = 0#8) : exec .ret s = .next (s.raise (.stackUnderflow s.pc)) := if_pos empty

/-- With k + 1 return addresses on the stack, RET pops one and jumps to entry k (R131). -/
theorem exec_ret_pop {s : State} {k : Fin 16} (hk : s.sp.toNat = k.val + 1) :
    exec .ret s = .next (s.pop.jumpTo s.stack[k.val]) := by
  obtain ⟨empty, -⟩ | ⟨h, -, e⟩ | ⟨reserved, -⟩ := execRet_cases s
  · simp [empty] at hk
  · have top : s.topOfStack h = s.stack[k.val] := by simp [State.topOfStack, hk]
    rw [← top]
    exact e
  · omega

/-- With the stack full, CALL raises (R133). -/
theorem exec_call_full {s : State} (nnn : Addr12) (full : s.sp = 16#8) :
    exec (.call nnn) s = .next (s.raise (.stackOverflow s.pc)) := if_pos full

/-- With room on the stack, CALL pushes the address after it and jumps (R133). -/
theorem exec_call_push {s : State} (nnn : Addr12) (room : s.sp.toNat < 16) :
    exec (.call nnn) s = .next ((s.push (s.pc + 2#16) room).jumpTo (addrOperand nnn)) := by
  obtain ⟨full, -⟩ | ⟨_, e⟩ | ⟨reserved, -⟩ := execCall_cases nnn s
  · simp [full] at room
  · exact e
  · omega

/-- A pop undoes a push but for the entry, which stays in the stack (R131). -/
theorem State.pop_push (s : State) (w : Word) (h : s.sp.toNat < 16) :
    (s.push w h).pop = { s with stack := (s.push w h).stack } := by
  have sp : s.sp + 1#8 - 1#8 = s.sp := BitVec.add_sub_cancel ..
  rw [State.pop, State.push_sp, sp, State.push]

/-- RET after a push and a jump goes to the address pushed; all but PC and the stack is as before the push (R131). -/
theorem exec_ret_pushed (s : State) (w target : Word) (room : s.sp.toNat < 16) :
    exec .ret ((s.push w room).jumpTo target) = .next ({ s with stack := (s.push w room).stack }.jumpTo w) := by
  let k : Fin 16 := ⟨s.sp.toNat, room⟩
  have entry : (s.push w room).stack[k.val] = w := (s.stack_push w room k).trans (if_pos rfl)
  calc exec .ret ((s.push w room).jumpTo target)
    _ = .next ((s.push w room).pop.jumpTo (s.push w room).stack[k.val]) := exec_ret_pop (s.toNat_sp_push w room)
    _ = _ := by rw [entry, State.pop_push]

/-! ### The statements -/

/-- Settles O20: the blank framebuffer has every pixel false, and the advance writes PC alone. -/
theorem clsClearsTheFramebuffer : Obligations.ClsClearsTheFramebuffer :=
  ⟨fun _ => decodeWord_cls, fun _ => ⟨_, rfl, Framebuffer.pixel_blank, rfl⟩⟩

/-- Settles O21: SP = 0 raises, SP = k + 1 pops entry k. -/
theorem retPopsTheStack : Obligations.RetPopsTheStack := by
  refine ⟨fun _ => decodeWord_ret, fun _ => exec_ret_empty, fun s k hk => ⟨exec_ret_pop hk, ?_⟩⟩
  have nonempty : s.sp ≠ 0#8 := fun empty => by simp [empty] at hk
  rw [← State.pop_sp, State.toNat_sp_pop s nonempty, hk, Nat.add_sub_cancel]

/-- Settles O22: the jump writes PC alone, with the operand zero-extended. -/
theorem jumpSetsPc : Obligations.JumpSetsPc :=
  ⟨fun _ => decodeWord_jp, fun _ nnn => ⟨_, rfl, toNat_addrOperand nnn, rfl⟩⟩

/-- Settles O23: SP = 16 raises, SP = k pushes at entry k and jumps. -/
theorem callPushesTheReturnAddress : Obligations.CallPushesTheReturnAddress := by
  refine ⟨fun _ => decodeWord_call, fun _ => exec_call_full, fun s nnn k hk => ?_⟩
  have room : s.sp.toNat < 16 := hk ▸ k.isLt
  have entry := s.stack_push (s.pc + 2#16) room
  refine ⟨_, exec_call_push nnn room, (entry k).trans (if_pos hk), fun j other => (entry j).trans (if_neg ?_), ?_,
    toNat_addrOperand nnn, rfl⟩
  · exact fun hj => other (Fin.ext (hj.symm.trans hk))
  · rw [State.jumpTo_sp, State.toNat_sp_push, hk]

/-- Settles O25: the return pops the entry that the call pushed. -/
theorem callThenReturn : Obligations.CallThenReturn := fun s nnn room =>
  ⟨_, _, exec_call_push nnn room, exec_ret_pushed s (s.pc + 2#16) (addrOperand nnn) room, rfl, rfl, rfl⟩

end Sys2Proof.Machine

namespace Sys2Proof.Machine

/-! ## Families 0x3 to 0x7, and 9xyn (41_family3_7.md): skips on compare, load and add immediate

### The skip (10_state.md rule R26) -/

theorem State.skipIf_of_true (s : State) {c : Bool} (h : c = true) : s.skipIf c = { s with pc := s.pc + 4#16 } := by
  rw [h]; rfl

theorem State.skipIf_of_false (s : State) {c : Bool} (h : c = false) : s.skipIf c = { s with pc := s.pc + 2#16 } := by
  rw [h]; rfl

/-- A pair of instructions, one skipping when a = b and the other when a ≠ b: in each case one skips and the other does not. -/
theorem exec_skip_pair {se sne : Instr} {s : State} {a b : Byte} (hse : exec se s = .next (s.skipIf (a == b)))
    (hsne : exec sne s = .next (s.skipIf (a != b))) :
    (a = b → exec se s = .next { s with pc := s.pc + 4#16 } ∧ exec sne s = .next { s with pc := s.pc + 2#16 }) ∧
    (a ≠ b → exec se s = .next { s with pc := s.pc + 2#16 } ∧ exec sne s = .next { s with pc := s.pc + 4#16 }) := by
  rw [hse, hsne]
  refine ⟨fun eq => ?_, fun ne => ?_⟩
  · rw [s.skipIf_of_true (beq_iff_eq.mpr eq), s.skipIf_of_false (bne_eq_false_iff_eq.mpr eq)]
    exact ⟨rfl, rfl⟩
  · rw [s.skipIf_of_false (beq_eq_false_iff_ne.mpr ne), s.skipIf_of_true (bne_iff_ne.mpr ne)]
    exact ⟨rfl, rfl⟩

/-! ### The write of one register -/

/-- A register write followed by the advance writes that register and PC alone. -/
theorem State.writesReg_setV_advance (s : State) (x : Reg) (b : Byte) : s.WritesReg (s.setV x b).advance x b :=
  ⟨s.getV_setV_same x b, fun _ other => s.getV_setV_other b other, rfl⟩

/-- The wrapped sum of two bytes as a number (R154, R175). -/
theorem byte_add_eq (a b : Byte) : a + b = BitVec.ofNat 8 ((a.toNat + b.toNat) % 256) :=
  BitVec.eq_of_toNat_eq (by simp)

/-! ### The statements -/

/-- Settles O27: 3xnn and 4xnn are a skip pair on V[x] and nn. -/
theorem immediateSkips : Obligations.ImmediateSkips :=
  ⟨fun _ => decodeWord_seImm, fun _ => decodeWord_sneImm, fun _ _ _ => exec_skip_pair rfl rfl⟩

/-- Settles O28: 5xyn and 9xyn are a skip pair on V[x] and V[y], and the decoder does not read n. -/
theorem registerSkips : Obligations.RegisterSkips :=
  ⟨fun _ => decodeWord_seReg, fun _ => decodeWord_sneReg, fun _ _ _ => exec_skip_pair rfl rfl⟩

/-- Settles O29: both write V[x] and advance, the sum being the wrapped one. -/
theorem immediateLoadAndAdd : Obligations.ImmediateLoadAndAdd := by
  refine ⟨fun _ => decodeWord_ldImm, fun _ => decodeWord_addImm, fun s x nn => ⟨⟨_, rfl, ?_⟩, ⟨_, rfl, ?_⟩⟩⟩
  · exact s.writesReg_setV_advance x nn
  · rw [← byte_add_eq]
    exact s.writesReg_setV_advance x (s.getV x + nn)

end Sys2Proof.Machine

namespace Sys2Proof.Machine

/-! ## Family 0x8 (42_family8_alu.md): the register ALU

### The write of a result and a flag -/

/-- A result and flag write followed by the advance writes V[x], VF and PC alone, and the flag is left when x = F (R170). -/
theorem State.writesRegFlag_setVFlag_advance (s : State) (x : Reg) (b f : Byte) :
    s.WritesRegFlag (s.setVFlag x b f).advance x b f :=
  ⟨(s.setV x b).getV_setV_same VF f, fun notVf => by simp [notVf], fun _ other notVf => by simp [other, notVf], rfl⟩

/-! ### Results as numbers -/

/-- The wrapped difference of two bytes as a number (R176, R178). -/
theorem byte_sub_eq (a b : Byte) : a - b = BitVec.ofNat 8 ((a.toNat + 256 - b.toNat) % 256) :=
  BitVec.eq_of_toNat_eq (by rw [BitVec.toNat_sub, BitVec.toNat_ofNat]; omega)

/-- A shift right by one halves (R177). -/
theorem byte_shiftRight_one_eq (a : Byte) : a >>> 1 = BitVec.ofNat 8 (a.toNat / 2) :=
  BitVec.eq_of_toNat_eq (by rw [BitVec.toNat_ushiftRight, BitVec.toNat_ofNat, Nat.shiftRight_eq_div_pow]; omega)

/-- A shift left by one doubles and wraps (R179). -/
theorem byte_shiftLeft_one_eq (a : Byte) : a <<< 1 = BitVec.ofNat 8 (a.toNat * 2 % 256) :=
  BitVec.eq_of_toNat_eq (by rw [BitVec.toNat_shiftLeft, BitVec.toNat_ofNat, Nat.shiftLeft_eq]; omega)

/-! ### Carry and no borrow (R30) -/

section Flags

variable {a b : Byte}

theorem carryFlag_of_gt (h : a.toNat + b.toNat > 255) : carryFlag a b = 1#8 := flagByte_of_true (decide_eq_true h)

theorem carryFlag_of_le (h : a.toNat + b.toNat ≤ 255) : carryFlag a b = 0#8 :=
  flagByte_of_false (decide_eq_false (Nat.not_lt.mpr h))

theorem noBorrowFlag_of_ge (h : a.toNat ≥ b.toNat) : noBorrowFlag a b = 1#8 := flagByte_of_true (decide_eq_true h)

theorem noBorrowFlag_of_lt (h : a.toNat < b.toNat) : noBorrowFlag a b = 0#8 :=
  flagByte_of_false (decide_eq_false (Nat.not_le.mpr h))

end Flags

/-! ### Subtraction in either direction -/

/-- A subtraction a - b with its flag gives the wrapped difference, and 1 or 0 in VF as a ≥ b or not. -/
theorem exec_subtraction {i : Instr} {s : State} {x : Reg} {a b : Byte}
    (h : exec i s = .next (s.setVFlag x (a - b) (noBorrowFlag a b)).advance) :
    ∃ t f, exec i s = .next t ∧ s.WritesRegFlag t x (BitVec.ofNat 8 ((a.toNat + 256 - b.toNat) % 256)) f ∧
      (a.toNat ≥ b.toNat → f = 1#8) ∧ (a.toNat < b.toNat → f = 0#8) := by
  refine ⟨_, _, h, ?_, noBorrowFlag_of_ge, noBorrowFlag_of_lt⟩
  rw [← byte_sub_eq]
  exact s.writesRegFlag_setVFlag_advance x (a - b) (noBorrowFlag a b)

/-! ### The statements -/

/-- Settles O30: the instruction writes V[x] and advances. -/
theorem loadRegister : Obligations.LoadRegister :=
  ⟨fun _ => decodeWord_ldReg, fun s x y => ⟨_, rfl, s.writesReg_setV_advance x (s.getV y)⟩⟩

/-- Settles O31: each of the three writes its result into V[x] and advances; VF is not written as a flag. -/
theorem logicInstructions : Obligations.LogicInstructions :=
  ⟨fun _ => decodeWord_orReg, fun _ => decodeWord_andReg, fun _ => decodeWord_xorReg, fun s x y =>
    ⟨⟨_, rfl, s.writesReg_setV_advance x (s.getV x ||| s.getV y)⟩,
      ⟨_, rfl, s.writesReg_setV_advance x (s.getV x &&& s.getV y)⟩,
      ⟨_, rfl, s.writesReg_setV_advance x (s.getV x ^^^ s.getV y)⟩⟩⟩

/-- Settles O32: the wrapped sum, then the carry of the old operands. -/
theorem addRegisterCarry : Obligations.AddRegisterCarry := by
  refine ⟨fun _ => decodeWord_addReg, fun s x y => ⟨_, _, rfl, ?_, carryFlag_of_gt, carryFlag_of_le⟩⟩
  rw [← byte_add_eq]
  exact s.writesRegFlag_setVFlag_advance x (s.getV x + s.getV y) (carryFlag (s.getV x) (s.getV y))

/-- Settles O33: 8xy5 and 8xy7 are the subtraction with the operands one way and the other. -/
theorem subtractionsNoBorrow : Obligations.SubtractionsNoBorrow :=
  ⟨fun _ => decodeWord_subReg, fun _ => decodeWord_subnReg, fun _ _ _ => ⟨exec_subtraction rfl, exec_subtraction rfl⟩⟩

/-- Settles O34: the shift halves V[x], then VF takes its old low bit. -/
theorem shiftRightRegister : Obligations.ShiftRightRegister := by
  refine ⟨fun _ => decodeWord_shr, fun s x _ => ⟨_, rfl, ?_⟩⟩
  rw [← byte_shiftRight_one_eq, ← lowBitFlag_eq]
  exact s.writesRegFlag_setVFlag_advance x (s.getV x >>> 1) (lowBitFlag (s.getV x))

/-- Settles O35: the shift doubles V[x], then VF takes its old high bit. -/
theorem shiftLeftRegister : Obligations.ShiftLeftRegister := by
  refine ⟨fun _ => decodeWord_shl, fun s x _ => ⟨_, rfl, ?_⟩⟩
  rw [← byte_shiftLeft_one_eq, ← highBitFlag_eq]
  exact s.writesRegFlag_setVFlag_advance x (s.getV x <<< 1) (highBitFlag (s.getV x))

end Sys2Proof.Machine

namespace Sys2Proof.Machine

/-! ## Families 0xA to 0xC (43_family9_C.md): load index, indexed jump, random byte

### The target of the indexed jump (R27, R192) -/

/-- The sum does not wrap: it is at most 0xFFF + 0xFF. -/
theorem toNat_addrOperand_add_wordOfByte (nnn : Addr12) (b : Byte) :
    (addrOperand nnn + wordOfByte b).toNat = nnn.toNat + b.toNat := by
  have hb : (wordOfByte b).toNat = b.toNat := BitVec.toNat_setWidth_of_le (by decide)
  rw [BitVec.toNat_add, toNat_addrOperand, hb]
  omega

/-! ### The masked draw (R193) -/

/-- A masked byte has no bit outside its mask. -/
theorem byte_and_mask_and_not (b m : Byte) : b &&& m &&& ~~~m = 0#8 := by
  rw [BitVec.and_assoc, BitVec.and_not_self]
  exact BitVec.and_zero

/-! ### The statements -/

/-- Settles O36: I takes the zero-extended operand, and the advance writes PC alone. -/
theorem loadIndex : Obligations.LoadIndex :=
  ⟨fun _ => decodeWord_ldI, fun _ nnn => ⟨_, rfl, toNat_addrOperand nnn, rfl⟩⟩

/-- Settles O37: the jump writes PC alone, and its target is the exact sum. -/
theorem indexedJump : Obligations.IndexedJump :=
  ⟨fun _ => decodeWord_jpV0, fun s nnn => ⟨_, rfl, toNat_addrOperand_add_wordOfByte nnn (s.getV 0), rfl⟩⟩

/-- Settles O38: V[x] takes the draw masked with nn, whatever the draw is; a register write leaves the other registers. -/
theorem randomIsMasked : Obligations.RandomIsMasked := by
  refine ⟨fun _ => decodeWord_rnd, fun s x nn => ?_⟩
  obtain ⟨written, others, -⟩ := s.afterDraw.writesReg_setV_advance x (s.drawByte &&& nn)
  refine ⟨_, rfl, written, ?_, others, rfl⟩
  rw [written]
  exact byte_and_mask_and_not s.drawByte nn

end Sys2Proof.Machine

namespace Sys2Proof.Machine

/-! ## Family 0xD (44_familyD_draw.md): the sprite draw

### What Dxyn answers, by where the sprite lies -/

section Draw

variable {s : State} {x y : Reg} {n : Nibble}

/-- The state after the n-row sprite at I is drawn (R210): what Dxyn answers inside memory. -/
def State.drawn (s : State) (x y : Reg) (n : Nibble) : State :=
  (s.drawSprite x y (s.mem.readBytes s.i.toNat n.toNat)).advance

/-- With no sprite byte out of range, Dxyn draws (R210, R213). -/
theorem exec_drw_inside (h : n = 0#4 ∨ s.i.toNat + n.toNat ≤ 0x1000) : exec (.drw x y n) s = .next (s.drawn x y n) := by
  have inside : n.toNat = 0 ∨ s.i.toNat + n.toNat ≤ 0x1000 := h.imp_left (congrArg BitVec.toNat)
  rw [exec, execDrw, s.readBlock_inside inside]
  rfl

/-- With a sprite byte out of range, Dxyn raises, naming the lowest such address (R69, R272 (b)). -/
theorem exec_drw_outside (hn : n ≠ 0#4) (h : 0x1000 < s.i.toNat + n.toNat) :
    exec (.drw x y n) s = raisedMem s (max s.i.toNat 0x1000) := by
  have nonzero : n.toNat ≠ 0 := fun e => hn (BitVec.eq_of_toNat_eq e)
  rw [exec, execDrw, s.readBlock_outside nonzero h]

/-! ### The pixels (R211) -/

/-- A sprite has no more rows than the framebuffer, so it lands on no pixel twice. -/
theorem length_sprite_le (m : Memory) (a : Nat) (n : Nibble) : (m.readBytes a n.toNat).length ≤ 32 := by
  rw [Memory.length_readBytes]
  omega

variable {px : Fin 64} {py : Fin 32}

theorem pixel_drawn_on (on : s.SpriteOn x y n px py) : (s.drawn x y n).fb.pixel px py = !s.fb.pixel px py :=
  (pixel_drawRows _ _ _ _ (length_sprite_le ..) px py).trans (if_pos ((mem_spriteHits_iff_spriteOn ..).mpr on))

theorem pixel_drawn_off (off : ¬ s.SpriteOn x y n px py) : (s.drawn x y n).fb.pixel px py = s.fb.pixel px py :=
  (pixel_drawRows _ _ _ _ (length_sprite_le ..) px py).trans (if_neg (off ∘ (mem_spriteHits_iff_spriteOn ..).mp))

/-! ### The registers (R22, R212) -/

/-- The sprite has a 1-bit on a pixel that is true. -/
def State.Collides (s : State) (x y : Reg) (n : Nibble) : Prop :=
  ∃ px py, s.SpriteOn x y n px py ∧ s.fb.pixel px py = true

theorem flagByte_eq_one_iff {b : Bool} : flagByte b = 1#8 ↔ b = true := by cases b <;> decide

theorem flagByte_eq_zero_iff {b : Bool} : flagByte b = 0#8 ↔ ¬ b = true := by cases b <;> decide

/-- VF is the flag of the draw's collision mark, which is raised exactly by a collision. -/
theorem vf_drawn_eq_flagByte (s : State) (x y : Reg) (n : Nibble) :
    ∃ mark : Bool, (s.drawn x y n).getV VF = flagByte mark ∧ (mark = true ↔ s.Collides x y n) := by
  refine ⟨_, State.getV_setV_same _ VF _, (mark_drawRows _ _ _ _ (length_sprite_le ..)).trans ?_⟩
  simp only [mem_spriteHits_iff_spriteOn, State.Collides]

theorem vf_drawn_eq_one_iff : (s.drawn x y n).getV VF = 1#8 ↔ s.Collides x y n := by
  obtain ⟨mark, vf, raised⟩ := vf_drawn_eq_flagByte s x y n
  rw [vf, flagByte_eq_one_iff, raised]

theorem vf_drawn_eq_zero_iff : (s.drawn x y n).getV VF = 0#8 ↔ ¬ s.Collides x y n := by
  obtain ⟨mark, vf, raised⟩ := vf_drawn_eq_flagByte s x y n
  rw [vf, flagByte_eq_zero_iff, raised]

theorem getV_drawn_other {z : Reg} (other : z ≠ VF) : (s.drawn x y n).getV z = s.getV z :=
  s.getV_drawSprite_other x y z _ other

/-! ### The same draw again (R214 (b)) -/

/-- A draw whose origin is not read from VF leaves its own sprite where it was: memory, I and the origin stay. -/
theorem spriteOn_drawn_iff (hx : x ≠ VF) (hy : y ≠ VF) : (s.drawn x y n).SpriteOn x y n px py ↔ s.SpriteOn x y n px py := by
  rw [State.SpriteOn, getV_drawn_other hx, getV_drawn_other hy]
  rfl

/-- A flip undone is no flip, and a pixel off the sprite is left twice. -/
theorem fb_drawn_drawn (hx : x ≠ VF) (hy : y ≠ VF) : ((s.drawn x y n).drawn x y n).fb = s.fb := by
  refine Framebuffer.ext fun px py => ?_
  by_cases on : s.SpriteOn x y n px py
  · rw [pixel_drawn_on ((spriteOn_drawn_iff hx hy).mpr on), pixel_drawn_on on, Bool.not_not]
  · rw [pixel_drawn_off (mt (spriteOn_drawn_iff hx hy).mp on), pixel_drawn_off on]

/-- The second draw collides exactly where the first turned a false pixel to true. -/
theorem collides_drawn_iff (hx : x ≠ VF) (hy : y ≠ VF) :
    (s.drawn x y n).Collides x y n ↔ ∃ px py, s.SpriteOn x y n px py ∧ s.fb.pixel px py = false := by
  refine exists₂_congr fun px py => ?_
  rw [spriteOn_drawn_iff hx hy]
  refine and_congr_right fun on => ?_
  rw [pixel_drawn_on on, Bool.not_eq_true']

/-- Each 1-bit of the sprite's rows is on some pixel. -/
theorem exists_spriteOn_iff : (∃ px py, s.SpriteOn x y n px py) ↔
    ∃ r c : Nat, r < n.toNat ∧ c < 8 ∧ (s.mem.read (s.i.toNat + r)).getLsbD (7 - c) = true := by
  constructor
  · rintro ⟨px, py, r, c, hr, hc, -, -, bit⟩
    exact ⟨r, c, hr, hc, bit⟩
  · rintro ⟨r, c, hr, hc, bit⟩
    exact ⟨Fin.ofNat 64 ((s.getV x).toNat + c), Fin.ofNat 32 ((s.getV y).toNat + r), r, c, hr, hc, rfl, rfl, bit⟩

/-- After a first draw with no collision, the second collides exactly if the sprite has a 1-bit (R214 (b)). -/
theorem collides_drawn_iff_of_not_collides (hx : x ≠ VF) (hy : y ≠ VF) (free : ¬ s.Collides x y n) :
    (s.drawn x y n).Collides x y n ↔
      ∃ r c : Nat, r < n.toNat ∧ c < 8 ∧ (s.mem.read (s.i.toNat + r)).getLsbD (7 - c) = true := by
  have allFalse {px py} (on : s.SpriteOn x y n px py) : s.fb.pixel px py = false :=
    Bool.eq_false_of_not_eq_true fun lit => free ⟨px, py, on, lit⟩
  rw [collides_drawn_iff hx hy, ← exists_spriteOn_iff (x := x) (y := y)]
  exact exists₂_congr fun _ _ => and_iff_left_of_imp allFalse

end Draw

/-! ### The statements -/

/-- Settles O39: the draw flips the sprite's pixels, and VF is 1 or 0 as the sprite collides or not. -/
theorem drawXorsTheSprite : Obligations.DrawXorsTheSprite :=
  ⟨fun _ => decodeWord_drw, fun _ _ _ _ inside => ⟨_, exec_drw_inside inside, fun _ _ => pixel_drawn_on,
    fun _ _ => pixel_drawn_off, vf_drawn_eq_one_iff.mpr, vf_drawn_eq_zero_iff.mpr, fun _ => getV_drawn_other, rfl⟩⟩

/-- Settles O40: the block read answers the lowest address above 0xFFF, and raising it writes the fault record alone. -/
theorem drawOutOfRangeFaults : Obligations.DrawOutOfRangeFaults := fun _ _ _ _ => exec_drw_outside

/-- Settles O41: with no row to draw, what is left of the draw is the write of a clear mark to VF. -/
theorem drawOfHeightZero : Obligations.DrawOfHeightZero := fun s _ _ =>
  ⟨_, exec_drw_inside (.inl rfl), s.writesReg_setV_advance VF 0#8⟩

/-- Settles O42: the second draw flips back what the first flipped, and collides where the first found a false pixel. -/
theorem drawTwiceRestores : Obligations.DrawTwiceRestores := by
  intro s x y n hx hy inside
  have second := collides_drawn_iff (s := s) (n := n) hx hy
  refine ⟨_, _, exec_drw_inside inside, exec_drw_inside inside, fb_drawn_drawn hx hy,
    fun unlit => ?_, fun allLit => ?_, fun clear => ?_⟩
  · exact vf_drawn_eq_one_iff.mpr (second.mpr unlit)
  · exact vf_drawn_eq_zero_iff.mpr (mt second.mp allLit)
  · exact vf_drawn_eq_one_iff.trans (collides_drawn_iff_of_not_collides hx hy (vf_drawn_eq_zero_iff.mp clear))

end Sys2Proof.Machine

namespace Sys2Proof.Machine

/-! ## Families 0xE and 0xF (45_familyE_F.md): keys, timers, index, BCD, block store and load

### What Ex9E, ExA1 and Fx0A answer, by the keys -/

section Keys

variable {s : State} {x : Reg}

/-- With V[x] a key number, Ex9E skips if that key is down (R230). -/
theorem exec_skp_key {k : Fin 16} (hk : (s.getV x).toNat = k.val) : exec (.skp x) s = .next (s.skipIf (s.keyDown k)) := by
  obtain ⟨isKey, e⟩ | ⟨above, -⟩ := execSkp_cases x s
  · obtain rfl : k = ⟨_, isKey⟩ := Fin.ext hk.symm
    exact e
  · omega

/-- With V[x] a key number, ExA1 skips if that key is not down (R231). -/
theorem exec_sknp_key {k : Fin 16} (hk : (s.getV x).toNat = k.val) : exec (.sknp x) s = .next (s.skipIf (!s.keyDown k)) := by
  obtain ⟨isKey, e⟩ | ⟨above, -⟩ := execSknp_cases x s
  · obtain rfl : k = ⟨_, isKey⟩ := Fin.ext hk.symm
    exact e
  · omega

/-- With V[x] no key number, Ex9E raises in the key space (R272 (e), decision D17). -/
theorem exec_skp_above (above : 15 < (s.getV x).toNat) : exec (.skp x) s = raisedKey s (s.getV x).toNat :=
  dif_neg (Nat.not_lt.mpr above)

/-- With V[x] no key number, ExA1 raises in the key space (R272 (e), decision D17). -/
theorem exec_sknp_above (above : 15 < (s.getV x).toNat) : exec (.sknp x) s = raisedKey s (s.getV x).toNat :=
  dif_neg (Nat.not_lt.mpr above)

/-- With no key down, Fx0A changes nothing, PC among the rest (R233). -/
theorem exec_ldVxK_waits (up : ∀ k, s.keyDown k = false) : exec (.ldVxK x) s = .next s := by
  rw [exec, execLdVxK, s.lowestKey_none up]

/-- With key k the lowest that is down, Fx0A writes k into V[x] and advances (R233). -/
theorem exec_ldVxK_takes {k : Fin 16} (down : s.keyDown k = true) (lower : ∀ j, j < k → s.keyDown j = false) :
    exec (.ldVxK x) s = .next (s.setV x (BitVec.ofNat 8 k.val)).advance := by
  rw [exec, execLdVxK, s.lowestKey_some k down lower]

end Keys

/-! ### The index as a number (R236, R237) -/

theorem toNat_wordOfByte (b : Byte) : (wordOfByte b).toNat = b.toNat := BitVec.toNat_setWidth_of_le (by decide)

/-- I wraps at 16 bits (R236). -/
theorem toNat_add_wordOfByte (i : Word) (b : Byte) : (i + wordOfByte b).toNat = (i.toNat + b.toNat) % 65536 := by
  rw [BitVec.toNat_add, toNat_wordOfByte]

theorem indexCarryFlag_of_gt {i : Word} {b : Byte} (h : i.toNat + b.toNat > 0xFFFF) : indexCarryFlag i b = 1#8 :=
  flagByte_of_true (decide_eq_true h)

theorem indexCarryFlag_of_le {i : Word} {b : Byte} (h : i.toNat + b.toNat ≤ 0xFFFF) : indexCarryFlag i b = 0#8 :=
  flagByte_of_false (decide_eq_false (Nat.not_lt.mpr h))

/-- A glyph address does not wrap: it is at most 255 * 5 (R237). -/
theorem toNat_glyphAddress (b : Byte) : (BitVec.ofNat 16 (b.toNat * 5)).toNat = b.toNat * 5 := by
  rw [BitVec.toNat_ofNat]
  omega

/-! ### What Fx65 answers, by where the block lies -/

section Load

variable {s : State} {x k : Reg}

/-- Fx65 inside memory loads V[0..x] from I and advances (R240). -/
theorem exec_ldVxMem_inside (hi : s.i.toNat + x.val ≤ 0xFFF) :
    exec (.ldVxMem x) s = .next (s.loadRegs 0 (s.mem.readBytes s.i.toNat (x.val + 1))).advance := by
  rw [exec, execLdVxMem, s.readBlock_inside (.inr (by omega))]

/-- Fx65 that leaves memory raises, naming the lowest address out of range (R69, R272 (c)). -/
theorem exec_ldVxMem_outside (h : 0xFFF < s.i.toNat + x.val) : exec (.ldVxMem x) s = raisedMem s (max s.i.toNat 0x1000) := by
  rw [exec, execLdVxMem, s.readBlock_outside (Nat.succ_ne_zero _) (by omega)]

variable (s) (m : Memory) (a : Nat)

/-- After x + 1 bytes from a are loaded, V[k] is the byte at a + k, for k up to x (R240). -/
theorem State.getV_loadRegs_readBytes (hk : k ≤ x) :
    (s.loadRegs 0 (m.readBytes a (x.val + 1))).getV k = m.read (a + k.val) := by
  obtain ⟨loaded, -, -⟩ := s.loadRegs_spec (m.readBytes a (x.val + 1)) 0 (by rw [Memory.length_readBytes]; omega)
  rw [Fin.le_def] at hk
  rw [loaded k (by rw [Memory.length_readBytes]; omega), Memory.getElem_readBytes, Nat.sub_zero]

/-- A load of x + 1 bytes leaves the registers above V[x] (R240). -/
theorem State.getV_loadRegs_readBytes_above (hk : x < k) : (s.loadRegs 0 (m.readBytes a (x.val + 1))).getV k = s.getV k :=
  by_contra fun changed => Fin.not_le.mpr hk (State.le_of_getV_loadRegs_ne (m.length_readBytes a _) changed)

/-- Loading bytes that the registers hold already changes no register. -/
theorem State.v_loadRegs_readBytes_of_held (held : ∀ k, k ≤ x → m.read (a + k.val) = s.getV k) :
    (s.loadRegs 0 (m.readBytes a (x.val + 1))).v = s.v := by
  refine State.v_ext fun k => ?_
  rcases Fin.lt_or_ge x k with above | loaded
  · exact s.getV_loadRegs_readBytes_above m a above
  · exact (s.getV_loadRegs_readBytes m a loaded).trans (held k loaded)

end Load

/-! ### The statements -/

/-- Settles O43: the pair reads the latch at V[x] one way and the other, or raises. -/
theorem keySkips : Obligations.KeySkips := by
  refine ⟨fun _ => decodeWord_skp, fun _ => decodeWord_sknp, fun s x k hk => ?_,
    fun s x above => ⟨exec_skp_above above, exec_sknp_above above⟩⟩
  rw [exec_skp_key hk, exec_sknp_key hk]
  refine ⟨fun down => ?_, fun up => ?_⟩
  · rw [s.skipIf_of_true down, s.skipIf_of_false (congrArg not down)]
    exact ⟨rfl, rfl⟩
  · rw [s.skipIf_of_false up, s.skipIf_of_true (congrArg not up)]
    exact ⟨rfl, rfl⟩

/-- Settles O44: the wait leaves the whole state to the end of the cycle, which ticks the timers; the key taken is the lowest. -/
theorem keyWait : Obligations.KeyWait := by
  refine ⟨fun _ => decodeWord_ldVxK, fun _ _ => exec_ldVxK_waits, fun strict s w x up running hw hi => ?_,
    fun s x k down lower => ⟨_, exec_ldVxK_takes down lower, s.writesReg_setV_advance x (BitVec.ofNat 8 k.val)⟩⟩
  rw [stepWith_known running hw hi, exec_ldVxK_waits up, endCycle_of_running running, State.timerTick]

/-- Settles O45: Fx07 writes V[x] and advances; Fx15 and Fx18 write their timer and advance. -/
theorem timerInstructions : Obligations.TimerInstructions :=
  ⟨fun _ => decodeWord_ldVxDt, fun _ => decodeWord_ldDtVx, fun _ => decodeWord_ldStVx, fun s x =>
    ⟨⟨_, rfl, s.writesReg_setV_advance x s.dt⟩, rfl, rfl⟩⟩

/-- Settles O47: I takes the wrapped sum, then VF the carry of the old operands. -/
theorem addToIndex : Obligations.AddToIndex := by
  refine ⟨fun _ => decodeWord_addI, fun s x => ?_⟩
  obtain ⟨vf, others, -⟩ := State.writesReg_setV_advance { s with i := s.i + wordOfByte (s.getV x) } VF
    (indexCarryFlag s.i (s.getV x))
  exact ⟨_, rfl, toNat_add_wordOfByte s.i (s.getV x), fun carry => vf.trans (indexCarryFlag_of_gt carry),
    fun fits => vf.trans (indexCarryFlag_of_le fits), others, rfl⟩

/-- Settles O48: I takes the glyph address, which is exact, and the advance writes PC alone. -/
theorem fontAddress : Obligations.FontAddress :=
  ⟨fun _ => decodeWord_ldF, fun s x => ⟨_, rfl, toNat_glyphAddress (s.getV x), rfl⟩⟩

/-- Settles O49: the store writes digit k at I + k, and the hundreds of a byte are below 10. -/
theorem bcdStoresThreeDigits : Obligations.BcdStoresThreeDigits := by
  refine ⟨fun _ => decodeWord_ldB, fun s x lo hi => ?_⟩
  have digit (k : Fin 3) : ((s.mem.writeBytes s.i.toNat (bcdDigits (s.getV x))).read (s.i.toNat + k.val)).toNat =
      (s.getV x).toNat / 10 ^ (2 - k.val) % 10 := Memory.toNat_read_writeBytes_bcdDigits s.mem _ rfl
  have hundreds : (s.getV x).toNat / 100 % 10 = (s.getV x).toNat / 100 := by omega
  have ones : (s.getV x).toNat / 1 % 10 = (s.getV x).toNat % 10 := by rw [Nat.div_one]
  exact ⟨_, exec_ldB_inside s x lo hi, (digit 0).trans hundreds, digit 1, (digit 2).trans ones,
    fun _ => Memory.read_writeBytes_outside s.mem (bcdDigits (s.getV x)), rfl⟩

/-- Settles O50: the store writes V[k] at I + k, and a block write leaves every address outside the block. -/
theorem storeRegisters : Obligations.StoreRegisters := by
  refine ⟨fun _ => decodeWord_ldMemVx, fun s x lo hi => ⟨_, exec_ldMemVx_inside s x lo hi,
    fun k hk => Memory.read_writeBytes_regsUpTo s.mem s hk rfl, fun a outside => ?_, rfl⟩⟩
  exact Memory.read_writeBytes_outside s.mem _ (by rw [State.length_regsUpTo]; omega)

/-- Settles O52: the load writes the byte at I + k into V[k] and nothing but registers; the block read raises the lowest address
above 0xFFF. -/
theorem loadRegisters : Obligations.LoadRegisters := by
  refine ⟨fun _ => decodeWord_ldVxMem, fun s x hi => ⟨_, exec_ldVxMem_inside hi, fun _ => s.getV_loadRegs_readBytes s.mem _,
    fun _ => s.getV_loadRegs_readBytes_above s.mem _, ?_⟩, fun _ _ => exec_ldVxMem_outside⟩
  exact congrArg State.advance (s.loadRegs_frame _ 0)

/-- Settles O59: the store leaves I and the registers, so the load finds at I + k what V[k] holds. -/
theorem storeThenLoadRestores : Obligations.StoreThenLoadRestores := by
  intro s x lo hi
  refine ⟨_, _, exec_ldMemVx_inside s x lo hi, exec_ldVxMem_inside hi, ?_, State.loadRegs_mem ..⟩
  exact State.v_loadRegs_readBytes_of_held _ _ s.i.toNat fun k hk => Memory.read_writeBytes_regsUpTo s.mem s hk rfl

end Sys2Proof.Machine

namespace Sys2Proof.Machine

/-! ## Exceptions (60_exceptions.md): who raises, what raising changes, the tick and the host operations

### The sources of faults (R271, R273) -/

/-- Settles O58: of the effects, only that of a fault of the instruction's own has another fault. -/
theorem sourcesOfFaults : Obligations.SourcesOfFaults := by
  intro i s t h
  cases exec_effect h with
  | raise own hr => exact .inr ⟨own, _, rfl, hr⟩
  | load x bs => exact .inl (State.loadRegs_fault ..)
  | wait | skip | jump | ret | call | writeReg | writeRegFlag | cls | ldI | rnd | drw | ldDtVx | ldStVx | addI | ldF | store =>
    exact .inl rfl

/-- An unknown word leaves the fault alone, or raises at PC (R99). -/
theorem execUnknown_fault {strict : Bool} {w : Word} {s t : State} (h : execUnknown strict w s = .next t) :
    t.fault = s.fault ∨ ∃ r, t = s.raise r ∧ r.At s.pc := by
  cases strict with
  | true =>
    obtain rfl := Host.Outcome.next.inj h
    exact .inr ⟨_, rfl, rfl⟩
  | false =>
    obtain rfl := Host.Outcome.next.inj h
    exact .inl rfl

/-- A fetched word leaves the fault alone, or raises at PC and changes nothing else (R271, R273). -/
theorem execWord_fault {strict : Bool} {w : Word} {s t : State} (h : execWord strict w s = .next t) :
    t.fault = s.fault ∨ ∃ r, t = s.raise r ∧ r.At s.pc := by
  cases hw : decodeWord w with
  | ok i => exact (sourcesOfFaults i s t (execWord_known s hw ▸ h)).imp_right And.right
  | error e => exact execUnknown_fault (execWord_unknown s hw ▸ h)

/-- What a step that answers a next state did to the fault: it raised at PC and changed nothing else, or it executed the fetched
word without a fault and ticked the timers (R104, R273, R280). -/
theorem stepWith_raises_or_ticks {strict : Bool} {s t : State} (h : stepWith strict s = .next t) :
    s.fault = none ∧
    ((∃ r, t = s.raise r ∧ r.At s.pc) ∨
     (∃ w u, s.fetch = .ok w ∧ execWord strict w s = .next u ∧ u.fault = none ∧ t = u.timerTick)) := by
  obtain ⟨running, ⟨bad, -, rfl⟩ | ⟨w, u, hw, hu, ⟨hf, rfl⟩ | ⟨hf, rfl⟩⟩⟩ := stepWith_cases h
  · exact ⟨running, .inl ⟨_, rfl, rfl⟩⟩
  · exact ⟨running, .inr ⟨w, u, hw, hu, hf, rfl⟩⟩
  · obtain same | raised := execWord_fault hu
    · exact absurd (same.trans running) hf
    · exact ⟨running, .inl raised⟩

/-- OversizeProgram, code 1, names no instruction: `load` raises it, and no step does (R270, R322). -/
theorem FaultRecord.At.faultCode_ne_one {pc : Word} {r : FaultRecord} (hr : r.At pc) : faultCode r ≠ 1 := by
  cases r with
  | oversizeProgram => exact hr.elim
  | stackOverflow | stackUnderflow | addressOutOfRange | unknownOpcode => simp [faultCode]

/-- Settles O11: a step either raises at PC, or executes and ticks, which leaves no fault recorded. -/
theorem faultingStepIsPrecise : Obligations.FaultingStepIsPrecise := by
  intro strict s t r h ht
  obtain ⟨running, ⟨r', rfl, hr⟩ | ⟨w, u, -, -, hf, rfl⟩⟩ := stepWith_raises_or_ticks h
  · obtain rfl := Option.some.inj ht
    exact ⟨rfl, running, hr, hr.faultCode_ne_one⟩
  · cases hf.symm.trans ht

/-! ### The tick (R280) -/

theorem tickByte_of_zero {b : Byte} (h : b = 0#8) : tickByte b = 0#8 := if_pos h

theorem tickByte_of_ne_zero {b : Byte} (h : b ≠ 0#8) : tickByte b = b - 1#8 := if_neg h

/-- Settles O12: a step that leaves no fault executed the fetched word and ticked; a tick writes the timers alone. -/
theorem everyCompletedStepTicksTheTimers : Obligations.EveryCompletedStepTicksTheTimers := by
  intro strict s t h ht
  obtain ⟨-, ⟨r, rfl, -⟩ | ⟨w, u, hw, hu, -, rfl⟩⟩ := stepWith_raises_or_ticks h
  · cases ht
  · exact ⟨w, u, hw, hu, tickByte_of_zero, tickByte_of_ne_zero, tickByte_of_zero, tickByte_of_ne_zero, rfl⟩

/-! ### The fetch fault, and the halted machine (R272 (a), R273) -/

/-- Settles O9: the fetch fails at 0x1000 from PC = 0xFFF and at PC above it, and the step raises that address. -/
theorem fetchOutOfRangeFaults : Obligations.FetchOutOfRangeFaults := fun _ s running =>
  ⟨fun last => stepWith_fetch_error running (s.fetch_last last),
    fun above => stepWith_fetch_error running (s.fetch_above above)⟩

theorem stepWith_halted {s : State} {r : FaultRecord} (hr : s.fault = some r) (strict : Bool) :
    stepWith strict s = .fault (.halted r) := by
  simp [stepWith, hr]

/-- Settles O10: the cycle looks at the fault before anything else, strict or not. -/
theorem haltedMachineTakesNoStep : Obligations.HaltedMachineTakesNoStep :=
  fun strict _ _ hr => ⟨stepWith_halted hr strict, stepWith_halted hr Config.strictUnknown⟩

/-! ### The stores, out of range (R272 (d)) -/

section Stores

variable {s : State} {x : Reg} {bad : Nat}

theorem exec_ldB_error (h : s.writeBlock s.i.toNat (bcdDigits (s.getV x)) = .error bad) :
    exec (.ldB x) s = raisedMem s bad := by
  rw [exec, execLdB, h]

theorem exec_ldMemVx_error (h : s.writeBlock s.i.toNat (s.regsUpTo x) = .error bad) :
    exec (.ldMemVx x) s = raisedMem s bad := by
  rw [exec, execLdMemVx, h]

end Stores

theorem bcdDigits_ne_nil (b : Byte) : bcdDigits b ≠ [] := List.ne_nil_of_length_eq_add_one (length_bcdDigits b)

theorem State.regsUpTo_ne_nil (s : State) (x : Reg) : s.regsUpTo x ≠ [] :=
  List.ne_nil_of_length_eq_add_one (s.length_regsUpTo x)

/-- Settles O51: the block write answers I itself when I is in the font, and else the lowest address above 0xFFF. -/
theorem storesOutOfRangeFault : Obligations.StoresOutOfRangeFault := by
  intro s x
  have digits := bcdDigits_ne_nil (s.getV x)
  have regs := s.regsUpTo_ne_nil x
  refine ⟨fun font => ⟨?_, ?_⟩, fun outside => ?_, fun aboveFont outside => ?_⟩
  · exact exec_ldB_error (s.writeBlock_font digits (Nat.lt_succ_of_le font))
  · exact exec_ldMemVx_error (s.writeBlock_font regs (Nat.lt_succ_of_le font))
  · exact exec_ldB_error (s.writeBlock_outside digits (by omega) (by rw [length_bcdDigits]; omega))
  · exact exec_ldMemVx_error (s.writeBlock_outside regs aboveFont (by rw [State.length_regsUpTo]; omega))

/-! ### The host operations (R284, R322) -/

theorem imageFits_iff {image : List Byte} : imageFits image = true ↔ 0x200 + image.length ≤ 0x1000 := by
  rw [imageFits, decide_eq_true_iff, Config.progBase, Nat.add_comm]

/-- A load that is accepted stores an image that fits, from 0x200 on, and nothing else changes (R322). -/
theorem load_ok {s t : State} {image : List Byte} (h : load s image = .ok t) :
    0x200 + image.length ≤ 0x1000 ∧ t = { s with mem := s.mem.writeBytes 0x200 image } := by
  unfold load at h
  split at h
  · next fits =>
    cases h
    exact ⟨imageFits_iff.1 fits, rfl⟩
  · cases h

/-- The input latch is no part of the invariant (R35). -/
theorem State.Inv.setKeys {s : State} (hs : s.Inv) (keys : Vector Bool 16) : (setKeys s keys).Inv :=
  ⟨hs.memWf, hs.font, hs.sp, hs.pc, hs.stack, hs.fault⟩

/-- Settles O16: `set_keys` writes the latch alone, and an accepted load is a store above the font and inside memory. -/
theorem hostOperationsKeepTheInvariant : Obligations.HostOperationsKeepTheInvariant := by
  refine fun s t hs => ⟨hs.setKeys, fun image h => ?_⟩
  obtain ⟨fits, rfl⟩ := load_ok h
  exact hs.store (by decide) fits

end Sys2Proof.Machine

namespace Sys2Proof.Machine

/-! ## Reset and hazards (70_reset_and_hazards.md): load, the done state, the timer write and the tick of its step

### Load (R322) -/

theorem load_of_le {image : List Byte} (fits : image.length ≤ 3584) (s : State) :
    load s image = .ok { s with mem := s.mem.writeBytes 0x200 image } :=
  if_pos (imageFits_iff.2 (by omega))

theorem load_of_gt {image : List Byte} (long : 3584 < image.length) (s : State) :
    load s image = .error (.oversizeProgram image.length) :=
  if_neg fun fits => absurd (imageFits_iff.1 fits) (by omega)

/-- Settles O19: an image that fits is stored from 0x200 on and read back there; a store leaves every other address. -/
theorem loadCopiesOrRejects : Obligations.LoadCopiesOrRejects := fun s image =>
  ⟨fun fits => ⟨_, load_of_le fits s, rfl, Memory.read_writeBytes_inside s.mem image 0x200,
      fun _ => Memory.read_writeBytes_outside s.mem image⟩,
    fun long => load_of_gt long s⟩

/-! ### A step that raises nothing, and its tick (R280, R326, R331) -/

/-- A running machine whose next word decodes to an instruction that raises nothing executes it and ticks the timers (R104, R280). -/
theorem stepWith_ticks {s t : State} {w : Word} {i : Instr} (running : s.fault = none) (hw : s.fetch = .ok w)
    (hi : decodeWord w = .ok i) (ht : exec i s = .next t) (hf : t.fault = none) (strict : Bool) :
    stepWith strict s = .next t.timerTick := by
  rw [stepWith_known running hw hi, ht, endCycle_of_running hf]

/-- Settles O26: the jump to itself leaves the whole state to the tick. -/
theorem doneStateOnlyTicks : Obligations.DoneStateOnlyTicks := by
  rintro strict s ⟨w, nnn, hw, hi, self⟩ running
  have stays : exec (.jp nnn) s = .next s := by rw [exec, execJp, self, State.jumpTo]
  exact stepWith_ticks running hw hi stays running strict

/-- The sound is on exactly while ST is at least 1 (R282). -/
theorem soundActive_iff (s : State) : soundActive s = true ↔ s.st.toNat ≥ 1 := by
  rw [soundActive, bne_iff_ne]
  bv_omega

/-- Settles O46: the timer holds V[x] when its step ticks it; after the tick ST is at least 1 exactly when V[x] is at least 2. -/
theorem timerWriteTicksInTheSameStep : Obligations.TimerWriteTicksInTheSameStep := by
  refine fun strict s w x running hw => ⟨fun hi => ?_, fun hi => ?_⟩
  · exact ⟨_, stepWith_ticks running hw hi rfl running strict, toNat_tickByte (s.getV x)⟩
  · have ticked := toNat_tickByte (s.getV x)
    refine ⟨_, stepWith_ticks running hw hi rfl running strict, ticked, (soundActive_iff _).trans ?_⟩
    rw [State.timerTick_st, State.advance_st, ticked]
    omega

end Sys2Proof.Machine
